-- ==== Sys2Proof/Word.lean ====
section
/-! DEFINITION. Bytes, 32-bit words, byte sequences, strings and the two fixed-width byte groups of the block
(spec/00_scope.md R8, R10; spec/20_memory.md R39, R40). -/

namespace Sys2Proof

/-- An unsigned 8-bit value (R8). -/
abbrev Byte := BitVec 8

/-- A 32-bit unsigned register or operand: `CFG_MAXBUF`, `CFG_IDLE`, `IDLE_ELAPSED`, `MS` (R19, R20, R23, R57). -/
abbrev U32 := BitVec 32

/-- A finite sequence of bytes; index 0 is the first byte in request order (R8, R37). -/
abbrev Bytes := List Byte

/-- A character string, held as the sequence of its character codes, so that it compares with the bytes of a
request's `NAME` byte for byte (R10, R61). DESIGN CHOICE: log 10, safe. -/
abbrev Str := List Byte

/-- The string with the given characters (every string literal of the spec is ASCII). -/
def Str.ofChars (cs : List Char) : Str := cs.map fun c => BitVec.ofNat 8 c.toNat

/-- The sentinel property name "errCode" (R12). -/
def Str.errCode : Str := Str.ofChars ['e', 'r', 'r', 'C', 'o', 'd', 'e']

/-- A 4-byte property code in table order: `b0` is the first byte of the code as written (R26). -/
structure Code where
  b0 : Byte
  b1 : Byte
  b2 : Byte
  b3 : Byte
deriving DecidableEq, Repr

/-- The code's bytes in table order. -/
def Code.toList (c : Code) : Bytes := [c.b0, c.b1, c.b2, c.b3]

/-- The 6-byte serial field in wire order: `s0` holds the two lowest digits (R39). -/
structure Serial where
  s0 : Byte
  s1 : Byte
  s2 : Byte
  s3 : Byte
  s4 : Byte
  s5 : Byte
deriving DecidableEq, Repr

/-- The field's bytes in wire order. -/
def Serial.toList (x : Serial) : Bytes := [x.s0, x.s1, x.s2, x.s3, x.s4, x.s5]

end Sys2Proof
end

