-- ==== Sys2Proof/Machine/Bytes.lean ====
section
/-! DEFINITION. The primitives on byte sequences that the spec's pseudocode uses: indexing, slices, searches
(spec/00_scope.md R8, R9) and the hexadecimal rendering of a byte (R10). -/

namespace Sys2Proof.Machine

/-- `s[i]`. The spec states a check before every read (R8, R119), so the value past the end is never used by an
instruction on a decoded request: log 19. Reading an operand that a short word leaves out gives 0. -/
def byteAt (s : Bytes) (i : Nat) : Byte := s.getD i 0

/-- `s[a..b)`, empty when `b ≤ a` (R8). -/
def slice (s : Bytes) (a b : Nat) : Bytes := (s.drop a).take (b - a)

/-- `find(s, pat)`: the least index at which `pat` occurs in `s` (R9). -/
def find : Bytes → Bytes → Option Nat
  | [], pat => if pat = [] then some 0 else none
  | b :: rest, pat => if pat.isPrefixOf (b :: rest) then some 0 else (find rest pat).map (· + 1)

/-- `first(s, b)`: the least index of the byte `b` in `s` (R9). -/
def first : Bytes → Byte → Option Nat
  | [], _ => none
  | x :: rest, b => if x = b then some 0 else (first rest b).map (· + 1)

/-- `last(s, b)`: the greatest index of the byte `b` in `s` (R9). -/
def last : Bytes → Byte → Option Nat
  | [], _ => none
  | x :: rest, b =>
    match last rest b with
    | some i => some (i + 1)
    | none => if x = b then some 0 else none

/-- The high nibble `b[7:4]` as a number (R8). -/
def highNibble (b : Byte) : Nat := b.toNat / 16

/-- The low nibble `b[3:0]` as a number (R8). -/
def lowNibble (b : Byte) : Nat := b.toNat % 16

/-- The lower-case hexadecimal digit of a number below 16, as its character code: "0" is 48, "a" is 97 (R10). -/
def hexDigit (n : Nat) : Byte := if n < 10 then BitVec.ofNat 8 (48 + n) else BitVec.ofNat 8 (87 + n)

/-- `hex2(b)`: two lower-case hexadecimal digits with a leading zero (R10, R93). -/
def hex2 (b : Byte) : Str := [hexDigit (highNibble b), hexDigit (lowNibble b)]

end Sys2Proof.Machine
end

