-- ==== Sys2Proof/Machine/Flags.lean ====
section
/-! DEFINITION. The block has no condition codes and no status flags that persist (spec/10_state.md R29). What it
computes as a bit: the checksum's agreement (spec/41_codec_units.md R86, R87), and the saturating idle counter the
timer's pending condition compares (spec/40_assembler.md R71). -/

namespace Sys2Proof.Machine

/-- `CHECKSUM(s)`: the sum of the bytes modulo 256 (R86). -/
def checksum : Bytes → Byte
  | [] => 0
  | b :: rest => b + checksum rest

/-- `CHECKSUM_OK(s, cs)` (R87). -/
def checksumOk (s : Bytes) (cs : Byte) : Bool := checksum s == cs

/-- `min(IDLE_ELAPSED + MS, CFG_IDLE)`, computed exactly, so that no carry is lost (R71, R23). -/
def elapse (elapsed ms idle : U32) : U32 := BitVec.ofNat 32 (min (elapsed.toNat + ms.toNat) idle.toNat)

end Sys2Proof.Machine
end

