-- ==== Sys2Proof/Config.lean ====
section
/-! DEFINITION. What an implementation fixes (the OPEN parameters of spec/00_scope.md R7), and the free values the
spec leaves open: constants without a body, so that no proof can see what they are. -/

namespace Sys2Proof

/-- The OPEN integer limits of R7. The state carries them, so that a statement about every state holds for every
value of them ("A model takes each `OPEN` parameter as an argument"). -/
structure Params where
  /-- `BOUNDARY_MAX`: the largest boundary length in bytes. -/
  boundaryMax : Nat
  /-- `MAX_BUFFER_LIMIT`: the largest legal `maxBufferSize`. -/
  maxBufferLimit : Nat
  /-- `IDLE_LIMIT`: the largest legal `idleInterval` in milliseconds. -/
  idleLimit : Nat
  /-- `CHUNK_MAX`: the largest chunk one `ASM_PUSH` carries. -/
  chunkMax : Nat
  /-- `DEC_MAX`: the largest frame one `CODEC_DECODE` carries. -/
  decMax : Nat
  /-- `INSTANCES`: how many Assembler instances there are. -/
  instances : Nat
deriving DecidableEq, Repr

/-- The ranges R7 gives the OPEN limits. -/
abbrev Params.Legal (p : Params) : Prop :=
  1 ≤ p.boundaryMax ∧ p.boundaryMax ≤ 255 ∧
  65535 ≤ p.maxBufferLimit ∧ p.maxBufferLimit ≤ 2 ^ 32 - 1 ∧
  3000 ≤ p.idleLimit ∧ p.idleLimit ≤ 2 ^ 32 - 1 ∧
  1 ≤ p.chunkMax ∧ p.chunkMax ≤ 65535 ∧
  20 ≤ p.decMax ∧ p.decMax ≤ 65535 ∧
  1 ≤ p.instances

/-- An entry of the Property Table: its scale is the exact decimal `scaleNum × 10^(−scaleExp)` (R26). -/
structure PropEntry where
  name : Str
  code : Code
  scaleNum : Nat
  scaleExp : Nat
deriving DecidableEq, Repr

/-- The one entry every table holds: "elecUa", code 02 01 01 00, scale 0.1 (R27). -/
def PropEntry.elecUa : PropEntry :=
  { name := Str.ofChars ['e', 'l', 'e', 'c', 'U', 'a'], code := ⟨0x02, 0x01, 0x01, 0x00⟩, scaleNum := 1, scaleExp := 1 }

/-- What an entry alone must satisfy: its name is neither "" nor "errCode", and its scale is positive (R26, R88). -/
abbrev PropEntry.Legal (e : PropEntry) : Prop := e.name ≠ [] ∧ e.name ≠ Str.errCode ∧ 1 ≤ e.scaleNum

/-- The invariants of the Property Table: it holds `elecUa`, every entry is legal, and names and codes are pairwise
distinct (R26, R27, R88). -/
abbrev TableLegal (t : List PropEntry) : Prop :=
  PropEntry.elecUa ∈ t ∧ (∀ e ∈ t, e.Legal) ∧ t.Pairwise fun a b => a.name ≠ b.name ∧ a.code ≠ b.code

/-- Keeps of a list of entries those that may follow the entries in `seen` in a legal table. -/
def keepLegal (seen : List PropEntry) : List PropEntry → List PropEntry
  | [] => []
  | e :: rest =>
    if e.Legal ∧ ∀ x ∈ seen, x.name ≠ e.name ∧ x.code ≠ e.code then e :: keepLegal (e :: seen) rest
    else keepLegal seen rest

/-- `NONBCD_PAIR`: the decimal weight of a value byte with a nibble above 9, OPEN (R7, R90). A free value: log 7. -/
opaque Config.nonBcdPair : Byte → Nat

/-- The raw material of the OPEN part of `PROPERTY_TABLE`: any list of entries at all (R7). Log 6. -/
opaque Config.otherEntries : List PropEntry

/-- The raw material of the OPEN limits: any natural numbers at all (R7). Log 5. -/
opaque Config.boundaryExtra : Nat
opaque Config.bufferExtra : Nat
opaque Config.idleExtra : Nat
opaque Config.chunkExtra : Nat
opaque Config.decExtra : Nat
opaque Config.instancesExtra : Nat

/-- The block's limits: every legal choice of R7 is one of these values. DESIGN CHOICE: log 5, safe. -/
def Config.params : Params :=
  { boundaryMax := Config.boundaryExtra % 255 + 1
    maxBufferLimit := Config.bufferExtra % (2 ^ 32 - 65535) + 65535
    idleLimit := Config.idleExtra % (2 ^ 32 - 3000) + 3000
    chunkMax := Config.chunkExtra % 65535 + 1
    decMax := Config.decExtra % 65516 + 20
    instances := Config.instancesExtra + 1 }

/-- The block's Property Table: `elecUa`, then entries nothing is known of but that they are legal together with it.
DESIGN CHOICE: log 6, safe. -/
def Config.propertyTable : List PropEntry :=
  PropEntry.elecUa :: keepLegal [PropEntry.elecUa] Config.otherEntries

end Sys2Proof
end

