-- ==== Sys2Proof/Syntax.lean ====
section
/-! DEFINITION. The instructions: one constructor per mnemonic of spec/opcode_table.json, with the operands of
spec/30_encoding.md R57, and what arrives at the block (R55, R63). -/

namespace Sys2Proof

/-- The four defined bits of `FLAGS` (R57): `INCL`, `INCL_DEF`, `MAX_DEF`, `IDLE_DEF`. -/
structure CfgFlags where
  incl : Bool
  inclDef : Bool
  maxDef : Bool
  idleDef : Bool
deriving DecidableEq, Repr

/-- The operations of R56, the reserved codes of R58 and the wire command codes of R54. Codec and unit requests
ignore `INST` (R55), so their constructors do not carry it. -/
inductive Instr where
  /-- `ASM_CONFIGURE` (R66). -/
  | asmConfigure (inst : Byte) (flags : CfgFlags) (boundary : Bytes) (maxBuf idle : U32)
  /-- `ASM_PUSH` (R67). -/
  | asmPush (inst : Byte) (chunk : Bytes)
  /-- `ASM_TICK` (R71). -/
  | asmTick (inst : Byte) (ms : U32)
  /-- `ASM_IDLE_FIRE` (R72): the timer event of an instance, never a host request. -/
  | asmIdleFire (inst : Byte)
  /-- `ASM_END` (R73). -/
  | asmEnd (inst : Byte)
  /-- `ASM_DESTROY` (R74). -/
  | asmDestroy (inst : Byte)
  /-- `CODEC_ENCODE` (R99, R100). -/
  | codecEncode (digits : Bytes) (cmd : Byte) (name : Str)
  /-- `CODEC_DECODE` (R105). -/
  | codecDecode (frame : Bytes)
  /-- `U_SERIAL_PACK` (R82). -/
  | uSerialPack (digits : Bytes)
  /-- `U_SERIAL_UNPACK` (R83). -/
  | uSerialUnpack (ser : Serial)
  /-- `U_BIAS_ADD` (R84). -/
  | uBiasAdd (b : Byte)
  /-- `U_BIAS_SUB` (R85). -/
  | uBiasSub (b : Byte)
  /-- `U_CHECKSUM_GEN` (R86). -/
  | uChecksumGen (data : Bytes)
  /-- `U_CHECKSUM_VERIFY` (R87). -/
  | uChecksumVerify (data : Bytes) (cs : Byte)
  /-- `U_PROP_BY_NAME` (R88). -/
  | uPropByName (name : Str)
  /-- `U_PROP_BY_CODE` (R89), the code in table order. -/
  | uPropByCode (code : Code)
  /-- `U_PAIR_VALUE` (R90). -/
  | uPairValue (b : Byte)
  /-- `U_BCD_VALUE` (R91). -/
  | uBcdValue (data : Bytes)
  /-- `U_SCALE` (R92): `raw` is an unsigned little-endian integer (R61). -/
  | uScale (raw : Bytes) (name : Str)
  /-- `U_HEX2` (R93). -/
  | uHex2 (b : Byte)
  /-- A request with a reserved operation code, and the bytes after the code (R58). -/
  | reservedOp (op : Byte) (rest : Bytes)
  /-- A frame with command code 11, the read request, at the Codec's command dispatch (R54, R118). -/
  | wireReadRequest (frame : Bytes)
  /-- A frame with command code 91 at the Codec's command dispatch (R113 to R116). -/
  | wireReadResponse (frame : Bytes)
  /-- A frame with command code B1 at the Codec's command dispatch (R113 to R116). -/
  | wireReadResponseMore (frame : Bytes)
  /-- A frame with command code D1 at the Codec's command dispatch (R117). -/
  | wireErrorResponse (frame : Bytes)
  /-- A frame with any other command code at the Codec's command dispatch (R118). -/
  | wireOtherCommand (frame : Bytes)
deriving DecidableEq, Repr

/-- What arrives at the block: a host request, as the byte sequence at the request port (R55), or the timer event
`<timer k>` of an instance where a trace places it (R63, R72). -/
inductive PortInput where
  | request (q : Bytes)
  | timer (inst : Byte)
deriving DecidableEq, Repr

end Sys2Proof
end

