-- ==== Sys2Proof/Machine/Operands.lean ====
section
/-! DEFINITION. Operand assembly and layouts of the host request format: little-endian integers, `FLAGS`, the map of
operation codes and the length a layout needs (spec/30_encoding.md R56 to R58, R60 to R62). -/

namespace Sys2Proof.Machine

/-- A little-endian unsigned integer: the sum of `s[i] × 256^i` (R61). -/
def leNat : Bytes → Nat
  | [] => 0
  | b :: rest => b.toNat + 256 * leNat rest

/-- The `u16` at offset `o` (R57, R61). -/
def u16At (q : Bytes) (o : Nat) : Nat := (byteAt q o).toNat + 256 * (byteAt q (o + 1)).toNat

/-- The `u32` at offset `o` (R57, R61): the byte at the lowest offset is the least significant. -/
def u32At (q : Bytes) (o : Nat) : U32 := byteAt q (o + 3) ++ byteAt q (o + 2) ++ byteAt q (o + 1) ++ byteAt q o

/-- The two bytes of a `u16` operand. -/
def u16Bytes (n : Nat) : Bytes := [BitVec.ofNat 8 n, BitVec.ofNat 8 (n / 256)]

/-- The four bytes of a `u32` operand. -/
def u32Bytes (w : U32) : Bytes :=
  [w.extractLsb' 0 8, w.extractLsb' 8 8, w.extractLsb' 16 8, w.extractLsb' 24 8]

/-- The one byte of a count field. -/
def countByte (n : Nat) : Byte := BitVec.ofNat 8 n

/-- The four defined bits of the `FLAGS` byte (R57). -/
def flagsOf (b : Byte) : CfgFlags :=
  { incl := b.getLsbD 0, inclDef := b.getLsbD 1, maxDef := b.getLsbD 2, idleDef := b.getLsbD 3 }

/-- The `FLAGS` byte with the given bits, its reserved bits 0 (R57). -/
def flagsByte (f : CfgFlags) : Byte :=
  0#4 ++ BitVec.ofBool f.idleDef ++ BitVec.ofBool f.maxDef ++ BitVec.ofBool f.inclDef ++ BitVec.ofBool f.incl

/-- `FLAGS[7:4] = 0` (R57, R60). -/
def flagsReservedClear (b : Byte) : Bool := b.extractLsb' 4 4 == 0#4

/-- The operation codes the port accepts from the host (R56). -/
def acceptedOps : Bytes :=
  [0x01, 0x02, 0x03, 0x05, 0x06, 0x10, 0x11, 0x20, 0x21, 0x22, 0x23, 0x24, 0x25, 0x26, 0x27, 0x28, 0x29, 0x2A, 0x2B]

/-- Whether an operation code is reserved: every code not accepted from the host, 0x04 among them (R58). -/
def isReservedOp (op : Byte) : Bool := !acceptedOps.contains op

/-- The length a request's layout needs, from `OP` and the request's own count fields (R57, R62); a count field past
the end reads as 0, and the length is then above the request's own. A reserved code has no layout: any length. -/
def requestLength (q : Bytes) : Nat :=
  match (byteAt q 0).toNat with
  | 0x01 => 12 + (byteAt q 3).toNat
  | 0x02 => 4 + u16At q 2
  | 0x03 => 6
  | 0x05 => 2
  | 0x06 => 2
  | 0x10 => 5 + (byteAt q 2).toNat + (byteAt q (4 + (byteAt q 2).toNat)).toNat
  | 0x11 => 4 + u16At q 2
  | 0x20 => 3 + (byteAt q 2).toNat
  | 0x21 => 8
  | 0x22 => 3
  | 0x23 => 3
  | 0x24 => 4 + u16At q 2
  | 0x25 => 5 + u16At q 2
  | 0x26 => 3 + (byteAt q 2).toNat
  | 0x27 => 6
  | 0x28 => 3
  | 0x29 => 3 + (byteAt q 2).toNat
  | 0x2A => 4 + (byteAt q 2).toNat + (byteAt q (3 + (byteAt q 2).toNat)).toNat
  | 0x2B => 3
  | _ => q.length

/-- `k < n`, written so that it evaluates when only `n ≥ 1` is known of an OPEN limit and `k` is 0. -/
def lessThan : Nat → Nat → Bool
  | _, 0 => false
  | 0, _ + 1 => true
  | k + 1, n + 1 => lessThan k n

end Sys2Proof.Machine
end

