-- ==== Sys2Proof/Machine/Outcomes.lean ====
section
/-! DEFINITION. Outcomes: response statuses and payloads (spec/60_exceptions.md R124), decode kinds and result records
(R129, spec/43_decode.md R108, R119), diagnostics (R131), each with the numeric code the spec gives it. -/

namespace Sys2Proof.Machine

/-- The encode errors (R128). -/
inductive EncError where
  | serialOverflow
  | invalidDigit
  | unknownProperty
deriving DecidableEq, Repr

/-- The sub-codes of `CONFIG_ERROR` (R124). -/
inductive ConfigError where
  | emptyBoundary
  | boundaryTooLong
  | badMaxBuf
  | badIdle
deriving DecidableEq, Repr

/-- The sub-code's number (R124). -/
def ConfigError.number : ConfigError → Byte
  | .emptyBoundary => 1
  | .boundaryTooLong => 2
  | .badMaxBuf => 3
  | .badIdle => 4

/-- The structural sub-codes of a decode (R119). -/
inductive Structural where
  | noDivider
  | oneDivider
  | noTerminator
  | order
  | serialField
  | short
  | length
deriving DecidableEq, Repr

/-- The sub-code's number (R119). -/
def Structural.number : Structural → Byte
  | .noDivider => 1
  | .oneDivider => 2
  | .noTerminator => 3
  | .order => 4
  | .serialField => 5
  | .short => 6
  | .length => 7

/-- Response statuses (R124). -/
inductive Status where
  | ok
  | configError
  | stateError
  | reservedOp
  | malformedRequest
  | encError (e : EncError)
deriving DecidableEq, Repr

/-- The status byte (R124). -/
def Status.number : Status → Byte
  | .ok => 0x00
  | .configError => 0x01
  | .stateError => 0x02
  | .reservedOp => 0x03
  | .malformedRequest => 0x04
  | .encError .serialOverflow => 0x10
  | .encError .unknownProperty => 0x11
  | .encError .invalidDigit => 0x12

/-- Decode outcome kinds (R129). -/
inductive DecodeKind where
  | ok
  | checksumMismatch
  | structural
  | unknownCommand
  | unknownProperty
  | errorResponse
deriving DecidableEq, Repr

/-- The kind's number (R129). -/
def DecodeKind.number : DecodeKind → Byte
  | .ok => 0x20
  | .checksumMismatch => 0x21
  | .structural => 0x22
  | .unknownCommand => 0x23
  | .unknownProperty => 0x24
  | .errorResponse => 0x25

/-- The `value` field of a decode result (R108). -/
inductive DecodeValue where
  | num (q : Rat)
  | text (t : Str)
  | diag (sub : Structural)
deriving DecidableEq, Repr

/-- The decode result record (R108). `sub` is a structural sub-code, or none where the spec writes 0. -/
structure DecodeResult where
  kind : DecodeKind
  sub : Option Structural
  serialNumber : Str
  commandCode : Str
  status : Bool
  propertyName : Str
  value : DecodeValue
deriving DecidableEq, Repr

/-- The number in the record's `sub` field: the sub-code, or 0 (R108). -/
def subNumber : Option Structural → Byte
  | none => 0
  | some x => x.number

/-- Payloads of responses, typed by the operation that gives them (R55). DESIGN CHOICE: log 11, safe. -/
inductive Payload where
  /-- No payload. -/
  | none
  /-- The sub-code of a `CONFIG_ERROR` (R124). -/
  | configError (e : ConfigError)
  /-- A byte sequence: a frame, a serial field, a code; the empty one for a failed encode (R100). -/
  | bytes (b : Bytes)
  /-- One byte (R84, R85, R86). -/
  | byte (b : Byte)
  /-- One bit (R87). -/
  | bit (b : Bool)
  /-- A string (R83, R93). -/
  | str (t : Str)
  /-- A natural number (R90, R91). -/
  | nat (n : Nat)
  /-- An exact rational (R92). -/
  | rat (q : Rat)
  /-- The answer of a lookup by code: the entry's name and scale, or nothing found (R89). -/
  | lookup (r : Option (Str × Rat))
  /-- A decode result (R108). -/
  | decoded (r : DecodeResult)
deriving DecidableEq, Repr

/-- The response to a request: `{ status, payload }` (R55). -/
structure Response where
  status : Status
  payload : Payload
deriving DecidableEq, Repr

/-- The kinds a diagnostic text is given for: an encode error or a structural sub-code (R108, R131). -/
inductive DiagKind where
  | enc (e : EncError)
  | dec (sub : Structural)
deriving DecidableEq, Repr

/-- A record of the stream `DIAG`: the kind of a failed encode and nothing else (R128, R131). -/
structure DiagRecord where
  kind : EncError
deriving DecidableEq, Repr

end Sys2Proof.Machine

/-- `DIAG_TEXT`: the text of each diagnostic, OPEN (spec/00_scope.md R7). A free value: log 8. -/
opaque Sys2Proof.Config.diagText : Sys2Proof.Machine.DiagKind → Sys2Proof.Str

namespace Sys2Proof.Machine

/-- The text of a `DIAG` record (R131). -/
def diagRecordText (d : DiagRecord) : Str := Config.diagText (.enc d.kind)

/-- The text of the value `Diag(sub)` of a decode result (R108). -/
def diagValueText (sub : Structural) : Str := Config.diagText (.dec sub)

end Sys2Proof.Machine
end

