-- ==== Sys2Proof/Machine/Units.lean ====
section
/-! DEFINITION. The Codec's sub-units as pure functions of their operands and the Property Table
(spec/41_codec_units.md R82 to R92). `CODEC_ENCODE`, `CODEC_DECODE` and the unit operations call them. -/

namespace Sys2Proof.Machine

/-- One byte of packed BCD: the more significant digit in the high nibble (R39, R82). -/
def packPair (hi lo : Byte) : Byte := (hi <<< 4) ||| lo

/-- The `i`-th of the 12 digits of the left-padded serial number, index 0 the most significant (R82). -/
def paddedDigit (digits : Bytes) (i : Nat) : Byte := byteAt (List.replicate (12 - digits.length) 0 ++ digits) i

/-- `SERIAL_PACK(digits)` (R82): overflow is checked first, then each digit. -/
def serialPack (digits : Bytes) : Except EncError Serial :=
  if 12 < digits.length then .error .serialOverflow
  else if digits.any (fun d => decide (9 < d.toNat)) then .error .invalidDigit
  else
    let pair (k : Nat) : Byte := packPair (paddedDigit digits (10 - 2 * k)) (paddedDigit digits (11 - 2 * k))
    .ok ⟨pair 0, pair 1, pair 2, pair 3, pair 4, pair 5⟩

/-- `SERIAL_UNPACK(ser)` (R83): the groups from the most significant byte down, leading "00" groups dropped. -/
def serialUnpack (ser : Serial) : Str :=
  ((ser.toList.reverse.map hex2).dropWhile fun g => g == hex2 0).flatten

/-- `BIAS_ADD(b)` (R84). -/
def biasAdd (b : Byte) : Byte := b + 0x33

/-- `BIAS_SUB(b)` (R85). -/
def biasSub (b : Byte) : Byte := b - 0x33

/-- The table's entry of a name. The empty name and "errCode" are in no table, whatever else the table holds
(R88, spec/92_eei_decisions.md D20): log 22. -/
def entryByName (table : List PropEntry) (name : Str) : Option PropEntry :=
  if name = [] ∨ name = Str.errCode then none else table.find? fun e => e.name == name

/-- `PROP_BY_NAME(name)` (R88). -/
def propByName (table : List PropEntry) (name : Str) : Except EncError Code :=
  match entryByName table name with
  | some e => .ok e.code
  | none => .error .unknownProperty

/-- `PROP_BY_CODE(code)` (R89). -/
def propByCode (table : List PropEntry) (code : Code) : Option PropEntry := table.find? fun e => e.code == code

/-- `PAIR(b)` (R90): a byte with a nibble above 9 takes its weight from the OPEN parameter. -/
def pairValue (b : Byte) : Nat :=
  if highNibble b ≤ 9 ∧ lowNibble b ≤ 9 then 10 * highNibble b + lowNibble b else Config.nonBcdPair b

/-- `BCD_VALUE(v)`: the sum of `PAIR(v[i]) × 100^i` (R91). -/
def bcdValue : Bytes → Nat
  | [] => 0
  | b :: rest => pairValue b + 100 * bcdValue rest

/-- An entry's scale, the exact decimal `scaleNum × 10^(−scaleExp)` (R26). -/
def entryScale (e : PropEntry) : Rat := mkRat e.scaleNum (10 ^ e.scaleExp)

/-- `raw × scale` of an entry, exact (R92). -/
def scaleBy (raw : Nat) (e : PropEntry) : Rat := mkRat ((raw * e.scaleNum : Nat) : Int) (10 ^ e.scaleExp)

/-- `SCALE(raw, name)` (R92). -/
def scaleByName (table : List PropEntry) (raw : Nat) (name : Str) : Except EncError Rat :=
  match entryByName table name with
  | some e => .ok (scaleBy raw e)
  | none => .error .unknownProperty

end Sys2Proof.Machine
end

