-- ==== Sys2Proof/Machine/Wire.lean ====
section
/-! DEFINITION. The Codec's two datapaths as pure functions: building a request frame (spec/42_encode.md R100) and
parsing a frame (spec/43_decode.md R105 to R119), with the command dispatch on the byte at `div+1` (R54, R112). -/

namespace Sys2Proof.Machine

/-- `DIVIDER` (R31). -/
def divider : Byte := 0x68

/-- `TERMINATOR` (R31). -/
def terminator : Byte := 0x16

/-- `PREAMBLE`: four copies of 0xFE (R31). -/
def preamble : Bytes := [0xFE, 0xFE, 0xFE, 0xFE]

/-- The code as the wire carries it: biased, then reversed (R40, R100). -/
def wireCode (c : Code) : Bytes := (c.toList.map biasAdd).reverse

/-- The body of a request frame, steps 1 to 3 of R100: 14 bytes. -/
def frameBody (ser : Serial) (cmd : Byte) (code : Code) : Bytes :=
  [divider] ++ ser.toList ++ [divider] ++ ([cmd, 0x04] ++ wireCode code)

/-- Steps 4 and 5 of R100: checksum, preamble and terminator around a body. -/
def frameOfBody (body : Bytes) : Bytes := preamble ++ body ++ [checksum body, terminator]

/-- `encodeCommand` (R100): the serial number is checked before the property name. -/
def encodeFrame (table : List PropEntry) (digits : Bytes) (cmd : Byte) (name : Str) : Except EncError Bytes :=
  match serialPack digits with
  | .error e => .error e
  | .ok ser =>
    match propByName table name with
    | .error e => .error e
    | .ok code => .ok (frameOfBody (frameBody ser cmd code))

/-- A structural result (R119). -/
def structuralResult (sub : Structural) : DecodeResult :=
  { kind := .structural, sub := some sub, serialNumber := [], commandCode := [], status := false,
    propertyName := Str.errCode, value := .diag sub }

/-- "csCheck Error" (R109). -/
def csCheckError : Str := Str.ofChars ['c', 's', 'C', 'h', 'e', 'c', 'k', ' ', 'E', 'r', 'r', 'o', 'r']

/-- The result of a checksum mismatch (R109). -/
def mismatchResult : DecodeResult :=
  { kind := .checksumMismatch, sub := none, serialNumber := [], commandCode := [], status := false,
    propertyName := Str.errCode, value := .text csCheckError }

/-- The positions `LOCATE` finds: the first and the last divider and the first terminator (R106). -/
structure Located where
  start : Nat
  div : Nat
  stop : Nat
deriving DecidableEq, Repr

/-- `LOCATE` (R106). -/
def locate (f : Bytes) : Except Structural Located :=
  match first f divider, last f divider with
  | some start, some div =>
    if div = start then .error .oneDivider
    else
      match first f terminator with
      | none => .error .noTerminator
      | some stop => .ok ⟨start, div, stop⟩
  | _, _ => .error .noDivider

/-- `PRECHECK`: `end − 1 > start` (R107). -/
def precheck (p : Located) : Bool := decide (p.start + 1 < p.stop)

/-- `VERIFY`'s condition: the sum over `[start, end−1)` is the byte at `end−1` (R109). -/
def verify (f : Bytes) (p : Located) : Bool := checksumOk (slice f p.start (p.stop - 1)) (byteAt f (p.stop - 1))

/-- `FIELDCHECK` (R110): what it finds wrong, if anything. -/
def fieldcheck (p : Located) : Option Structural :=
  if p.div ≠ p.start + 7 then some .serialField
  else if ¬ p.div + 2 < p.stop then some .short
  else none

/-- The steps before the command dispatch, in order (R105, R130): the positions, or the result that ends the decode. -/
def header (f : Bytes) : Except DecodeResult Located :=
  match locate f with
  | .error sub => .error (structuralResult sub)
  | .ok p =>
    if !precheck p then .error (structuralResult .order)
    else if !verify f p then .error mismatchResult
    else
      match fieldcheck p with
      | some sub => .error (structuralResult sub)
      | none => .ok p

/-- The serial number field `f[start+1 .. div)`, 6 bytes after `FIELDCHECK` (R111). -/
def serialField (f : Bytes) (p : Located) : Serial :=
  ⟨byteAt f (p.start + 1), byteAt f (p.start + 2), byteAt f (p.start + 3), byteAt f (p.start + 4),
   byteAt f (p.start + 5), byteAt f (p.start + 6)⟩

/-- The command byte (R112). -/
def commandByte (f : Bytes) (p : Located) : Byte := byteAt f (p.div + 1)

/-- The property code of a response: the 4 bytes from `div+3`, unbiased and reversed (R114). -/
def codeField (f : Bytes) (p : Located) : Code :=
  ⟨biasSub (byteAt f (p.div + 6)), biasSub (byteAt f (p.div + 5)), biasSub (byteAt f (p.div + 4)),
   biasSub (byteAt f (p.div + 3))⟩

/-- `RESPONSE_91` (R113 to R116); the command's text is `hex2` of the command byte. -/
def response91 (table : List PropEntry) (f : Bytes) (p : Located) : DecodeResult :=
  let len := (byteAt f (p.div + 2)).toNat
  if ¬ p.div + 3 < p.stop then structuralResult .short
  else if len < 4 then structuralResult .length
  else if p.div + 4 + len ≠ p.stop then structuralResult .length
  else
    let raw := bcdValue ((slice f (p.div + 7) (p.div + 3 + len)).map biasSub)
    let sn := serialUnpack (serialField f p)
    let cc := hex2 (commandByte f p)
    match propByCode table (codeField f p) with
    | some e =>
      { kind := .ok, sub := none, serialNumber := sn, commandCode := cc, status := true, propertyName := e.name,
        value := .num (scaleBy raw e) }
    | none =>
      { kind := .unknownProperty, sub := none, serialNumber := sn, commandCode := cc, status := false,
        propertyName := [], value := .num 0 }

/-- `ERROR_RESPONSE` (R117): no bias is removed from the byte at `end − 3`. -/
def errorResponse (f : Bytes) (p : Located) : DecodeResult :=
  { kind := .errorResponse, sub := none, serialNumber := serialUnpack (serialField f p),
    commandCode := hex2 (commandByte f p), status := false, propertyName := Str.errCode,
    value := .text (hex2 (byteAt f (p.stop - 3))) }

/-- "-1" (R118). -/
def minusOne : Str := Str.ofChars ['-', '1']

/-- `UNKNOWN_COMMAND` (R118). -/
def unknownCommand (f : Bytes) (p : Located) : DecodeResult :=
  { kind := .unknownCommand, sub := none, serialNumber := serialUnpack (serialField f p),
    commandCode := hex2 (commandByte f p), status := false, propertyName := Str.errCode, value := .text minusOne }

/-- A frame decoded with the command arm given: the steps before the dispatch, then the arm. -/
def decodeWith (arm : Located → DecodeResult) (f : Bytes) : DecodeResult :=
  match header f with
  | .error r => r
  | .ok p => arm p

/-- The command dispatch of R112: the arm of the command byte. -/
def dispatchCommand (table : List PropEntry) (f : Bytes) (p : Located) : DecodeResult :=
  let c := commandByte f p
  if c = 0x91 ∨ c = 0xB1 then response91 table f p
  else if c = 0xD1 then errorResponse f p
  else unknownCommand f p

/-- `decodeFrame` (R105). -/
def decodeFrame (table : List PropEntry) (f : Bytes) : DecodeResult := decodeWith (dispatchCommand table f) f

/-- The instruction of the wire row a command byte names (R54). -/
def wireInstr (cmd : Byte) (f : Bytes) : Instr :=
  if cmd = 0x11 then .wireReadRequest f
  else if cmd = 0x91 then .wireReadResponse f
  else if cmd = 0xB1 then .wireReadResponseMore f
  else if cmd = 0xD1 then .wireErrorResponse f
  else .wireOtherCommand f

/-- The command byte of a frame that reaches the command dispatch. -/
def reachedCommand (f : Bytes) : Option Byte :=
  match header f with
  | .error _ => none
  | .ok p => some (commandByte f p)

end Sys2Proof.Machine
end

