-- ==== Sys2Proof/WellFormed.lean ====
section
/-! DEFINITION. When an instruction is well formed: its operands fit the count fields of their layout, a reserved
code is reserved, a wire row is the row of its frame's command byte (spec/30_encoding.md R54, R57, R58), and the port
of a block with the given limits accepts it (R60). -/

namespace Sys2Proof

open Sys2Proof.Machine

/-- A sequence fits behind a count byte (R57). -/
def fitsU8 (s : Bytes) : Bool := decide (s.length < 256)

/-- A sequence fits behind a `u16` count (R57). -/
def fitsU16 (s : Bytes) : Bool := decide (s.length < 65536)

/-- The instance exists (R60). -/
def Params.hasInstance (p : Params) (inst : Byte) : Bool := lessThan inst.toNat p.instances

/-- A chunk the port accepts (R60). -/
def Params.admitsChunk (p : Params) (chunk : Bytes) : Bool := decide (chunk.length ≤ p.chunkMax)

/-- A frame the port accepts for decoding (R60). -/
def Params.admitsFrame (p : Params) (frame : Bytes) : Bool := decide (frame.length ≤ p.decMax)

/-- A wire row's frame reaches the command dispatch and its command byte names this row (R54, R112). -/
def isWireRow (i : Instr) (frame : Bytes) : Bool :=
  match reachedCommand frame with
  | some c => wireInstr c frame == i
  | none => false

/-- Well-formedness of an instruction on a block with limits `p`. -/
def Instr.wellFormed (p : Params) : Instr → Bool
  | .asmConfigure inst _ boundary _ _ => p.hasInstance inst && fitsU8 boundary
  | .asmPush inst chunk => p.hasInstance inst && fitsU16 chunk && p.admitsChunk chunk
  | .asmTick inst _ => p.hasInstance inst
  | .asmIdleFire inst => p.hasInstance inst
  | .asmEnd inst => p.hasInstance inst
  | .asmDestroy inst => p.hasInstance inst
  | .codecEncode digits _ name => fitsU8 digits && fitsU8 name
  | .codecDecode frame => fitsU16 frame && p.admitsFrame frame
  | .uSerialPack digits => fitsU8 digits
  | .uSerialUnpack _ => true
  | .uBiasAdd _ => true
  | .uBiasSub _ => true
  | .uChecksumGen data => fitsU16 data
  | .uChecksumVerify data _ => fitsU16 data
  | .uPropByName name => fitsU8 name
  | .uPropByCode _ => true
  | .uPairValue _ => true
  | .uBcdValue data => fitsU8 data
  | .uScale raw name => fitsU8 raw && fitsU8 name
  | .uHex2 _ => true
  | .reservedOp op _ => isReservedOp op
  | .wireReadRequest frame => fitsU16 frame && p.admitsFrame frame && isWireRow (.wireReadRequest frame) frame
  | .wireReadResponse frame => fitsU16 frame && p.admitsFrame frame && isWireRow (.wireReadResponse frame) frame
  | .wireReadResponseMore frame =>
    fitsU16 frame && p.admitsFrame frame && isWireRow (.wireReadResponseMore frame) frame
  | .wireErrorResponse frame => fitsU16 frame && p.admitsFrame frame && isWireRow (.wireErrorResponse frame) frame
  | .wireOtherCommand frame => fitsU16 frame && p.admitsFrame frame && isWireRow (.wireOtherCommand frame) frame

end Sys2Proof
end

