-- ==== Sys2Proof/Decode.lean ====
section
/-! DEFINITION. The decoder of host requests, total on any bytes (spec/30_encoding.md R55 to R62), the decoder of what
arrives at the block, the encoder written from the same tables, and the reading of a word of spec/opcode_table.json. -/

namespace Sys2Proof

open Sys2Proof.Machine

/-- Why a request is malformed (R60). Every reason is answered MALFORMED_REQUEST. -/
inductive Malformed where
  /-- Shorter or longer than its layout. -/
  | badLength
  /-- `FLAGS[7:4]` is not 0. -/
  | reservedFlags
  /-- `INST ≥ INSTANCES` in an `ASM_*` request. -/
  | noInstance
  /-- A chunk longer than `CHUNK_MAX`. -/
  | chunkTooLong
  /-- A frame longer than `DEC_MAX`. -/
  | frameTooLong
deriving DecidableEq, Repr

/-- The operands of a request of a layout's own length: a slice of `n` bytes at offset `o` (R57). -/
def field (q : Bytes) (o n : Nat) : Bytes := slice q o (o + n)

/-- Reads the operands of a request whose code is accepted and whose length is its layout's (R57). -/
def decodeOperands (p : Params) (q : Bytes) : Except Malformed Instr :=
  let inst := byteAt q 1
  let count := (byteAt q 2).toNat
  match (byteAt q 0).toNat with
  | 0x01 =>
    let blen := (byteAt q 3).toNat
    if !flagsReservedClear (byteAt q 2) then .error .reservedFlags
    else if !p.hasInstance inst then .error .noInstance
    else .ok (.asmConfigure inst (flagsOf (byteAt q 2)) (field q 4 blen) (u32At q (4 + blen)) (u32At q (8 + blen)))
  | 0x02 =>
    if !p.hasInstance inst then .error .noInstance
    else if !p.admitsChunk (field q 4 (u16At q 2)) then .error .chunkTooLong
    else .ok (.asmPush inst (field q 4 (u16At q 2)))
  | 0x03 => if !p.hasInstance inst then .error .noInstance else .ok (.asmTick inst (u32At q 2))
  | 0x05 => if !p.hasInstance inst then .error .noInstance else .ok (.asmEnd inst)
  | 0x06 => if !p.hasInstance inst then .error .noInstance else .ok (.asmDestroy inst)
  | 0x10 =>
    .ok (.codecEncode (field q 3 count) (byteAt q (3 + count)) (field q (5 + count) (byteAt q (4 + count)).toNat))
  | 0x11 =>
    if !p.admitsFrame (field q 4 (u16At q 2)) then .error .frameTooLong
    else .ok (.codecDecode (field q 4 (u16At q 2)))
  | 0x20 => .ok (.uSerialPack (field q 3 count))
  | 0x21 =>
    .ok (.uSerialUnpack ⟨byteAt q 2, byteAt q 3, byteAt q 4, byteAt q 5, byteAt q 6, byteAt q 7⟩)
  | 0x22 => .ok (.uBiasAdd (byteAt q 2))
  | 0x23 => .ok (.uBiasSub (byteAt q 2))
  | 0x24 => .ok (.uChecksumGen (field q 4 (u16At q 2)))
  | 0x25 => .ok (.uChecksumVerify (field q 4 (u16At q 2)) (byteAt q (4 + u16At q 2)))
  | 0x26 => .ok (.uPropByName (field q 3 count))
  | 0x27 => .ok (.uPropByCode ⟨byteAt q 2, byteAt q 3, byteAt q 4, byteAt q 5⟩)
  | 0x28 => .ok (.uPairValue (byteAt q 2))
  | 0x29 => .ok (.uBcdValue (field q 3 count))
  | 0x2A => .ok (.uScale (field q 3 count) (field q (4 + count) (byteAt q (3 + count)).toNat))
  | 0x2B => .ok (.uHex2 (byteAt q 2))
  | _ => .ok (.reservedOp (byteAt q 0) (q.drop 1))

/-- Decodes a request on a block with limits `p`: the reserved code first, then the length, then the fields
(R58, R60, R130). A request of no bytes has no code and is malformed: log 12. -/
def decodeRequest (p : Params) (q : Bytes) : Except Malformed Instr :=
  match q with
  | [] => .error .badLength
  | op :: rest =>
    if isReservedOp op then .ok (.reservedOp op rest)
    else if requestLength q ≠ q.length then .error .badLength
    else decodeOperands p q

/-- The wire decoder: a frame to decode that reaches the command dispatch is the instruction of its command's row
(R54, R112); everything else stays what it is. The two run the same: log 15. -/
def refine : Instr → Instr
  | .codecDecode f =>
    match reachedCommand f with
    | some c => wireInstr c f
    | none => .codecDecode f
  | i => i

/-- Decodes what arrives at the block: a request at the port, or a timer event (R55, R63, R72). -/
def decodeInput (p : Params) : PortInput → Except Malformed Instr
  | .request q => (decodeRequest p q).map refine
  | .timer inst => .ok (.asmIdleFire inst)

/-- A request to decode a frame (R57). -/
def decodeFrameRequest (f : Bytes) : Bytes := [0x11, 0x00] ++ u16Bytes f.length ++ f

/-- The request bytes of an instruction, by the layouts of R57; a Codec or unit request, which ignores `INST`, has
`INST` 0 (log 18). The timer event has its trace code and instance (R56). -/
def encode : Instr → Bytes
  | .asmConfigure inst flags boundary maxBuf idle =>
    [0x01, inst, flagsByte flags, countByte boundary.length] ++ boundary ++ u32Bytes maxBuf ++ u32Bytes idle
  | .asmPush inst chunk => [0x02, inst] ++ u16Bytes chunk.length ++ chunk
  | .asmTick inst ms => [0x03, inst] ++ u32Bytes ms
  | .asmIdleFire inst => [0x04, inst]
  | .asmEnd inst => [0x05, inst]
  | .asmDestroy inst => [0x06, inst]
  | .codecEncode digits cmd name =>
    [0x10, 0x00, countByte digits.length] ++ digits ++ [cmd, countByte name.length] ++ name
  | .codecDecode frame => decodeFrameRequest frame
  | .uSerialPack digits => [0x20, 0x00, countByte digits.length] ++ digits
  | .uSerialUnpack ser => [0x21, 0x00] ++ ser.toList
  | .uBiasAdd b => [0x22, 0x00, b]
  | .uBiasSub b => [0x23, 0x00, b]
  | .uChecksumGen data => [0x24, 0x00] ++ u16Bytes data.length ++ data
  | .uChecksumVerify data cs => [0x25, 0x00] ++ u16Bytes data.length ++ data ++ [cs]
  | .uPropByName name => [0x26, 0x00, countByte name.length] ++ name
  | .uPropByCode code => [0x27, 0x00] ++ code.toList
  | .uPairValue b => [0x28, 0x00, b]
  | .uBcdValue data => [0x29, 0x00, countByte data.length] ++ data
  | .uScale raw name => [0x2A, 0x00, countByte raw.length] ++ raw ++ [countByte name.length] ++ name
  | .uHex2 b => [0x2B, 0x00, b]
  | .reservedOp op rest => op :: rest
  | .wireReadRequest frame => decodeFrameRequest frame
  | .wireReadResponse frame => decodeFrameRequest frame
  | .wireReadResponseMore frame => decodeFrameRequest frame
  | .wireErrorResponse frame => decodeFrameRequest frame
  | .wireOtherCommand frame => decodeFrameRequest frame

/-- How an instruction arrives at the block: the timer event by itself, everything else as a request. -/
def encodeInput : Instr → PortInput
  | .asmIdleFire inst => .timer inst
  | i => .request (encode i)

/-- The bytes of a table word, least significant first (the first byte of the request lies lowest). -/
def wordBytes (nbits w : Nat) : Bytes := (List.range ((nbits + 7) / 8)).map fun i => BitVec.ofNat 8 (w / 256 ^ i)

/-- A request continued with bytes of 0 up to the length its layout needs (R57, R62). -/
def padRequest (q : Bytes) : Bytes := q ++ List.replicate (requestLength q - q.length) 0

/-- A wire frame with the given command code, a serial field of zeros, length byte 0, and no data: the shortest frame
whose operand bytes are 0 and whose checksum is right (R50, R54). -/
def bareFrame (cmd : Byte) : Bytes :=
  let body : Bytes := [divider, 0, 0, 0, 0, 0, 0, divider, cmd, 0]
  body ++ [checksum body, terminator]

/-- What a word of spec/opcode_table.json stands for as an input of the block: the timer event for code 04, a frame to
decode for a code only a wire row names exactly, else the host request with that operation code. DESIGN CHOICE: log 15,
safe: the table numbers operation codes and wire command codes alike. -/
def tableInput (nbits w : Nat) : PortInput :=
  let q := wordBytes nbits w
  match (byteAt q 0).toNat with
  | 0x04 => .timer (byteAt q 1)
  | 0x91 => .request (decodeFrameRequest (bareFrame 0x91))
  | 0xB1 => .request (decodeFrameRequest (bareFrame 0xB1))
  | 0xD1 => .request (decodeFrameRequest (bareFrame 0xD1))
  | _ => .request (padRequest q)

/-- The instruction the decoder reads from a table word, on the block as it is after reset. -/
def decodeTableWord (nbits w : Nat) : Option Instr :=
  match decodeInput Config.params (tableInput nbits w) with
  | .ok i => some i
  | .error _ => none

end Sys2Proof
end

