-- ==== Sys2Proof/Machine/State.lean ====
section
/-! DEFINITION. The state of the block (spec/10_state.md R15 to R27) as plain data, the reasons a step stops, and the
state after power-on reset (R32, spec/70_reset_and_hazards.md R141). -/

namespace Sys2Proof.Machine

/-- `LIFE` (R16). -/
inductive Life where
  | unconfigured
  | running
  | closed
  | destroyed
deriving DecidableEq, Repr

/-- The value of the 2-bit register `LIFE` (R16). -/
def Life.number : Life → BitVec 2
  | .unconfigured => 0
  | .running => 1
  | .closed => 2
  | .destroyed => 3

/-- The configuration registers, written together by a successful `ASM_CONFIGURE` (R17 to R20, R34). `CFG_BLEN` is the
length of `boundary`. -/
structure AsmConfig where
  /-- `CFG_BOUNDARY` (R17). -/
  boundary : Bytes
  /-- `CFG_INCLUDE` (R18). -/
  includeBoundary : Bool
  /-- `CFG_MAXBUF` (R19). -/
  maxBuf : U32
  /-- `CFG_IDLE` (R20). -/
  idle : U32
deriving DecidableEq, Repr

/-- One Assembler instance (R15). `cfg` is none where the configuration registers hold no value (R32, R125): log 9. -/
structure Instance where
  /-- `LIFE` (R16). -/
  life : Life
  /-- The configuration registers, or no value (R32). -/
  cfg : Option AsmConfig
  /-- `BUF` (R21). -/
  buf : Bytes
  /-- `TIMER_ARMED` (R22). -/
  timerArmed : Bool
  /-- `IDLE_ELAPSED` (R23). -/
  idleElapsed : U32
  /-- `OUT`, oldest frame first (R24). -/
  out : List Bytes
deriving DecidableEq, Repr

/-- The whole state. `params`, `prop`, `insts` and `diag` are the spec's (R7, R15); `inputs` and `responses` are the
model's own and hold what comes and goes at the request port (R14, R55): log 1, log 11. -/
structure State where
  /-- The OPEN limits (R7), written by no step: log 5. -/
  params : Params
  /-- `PROP` (R26), written by no step. -/
  prop : List PropEntry
  /-- The Assembler instances, instance `k` at index `k` (R15, R139): log 21. -/
  insts : List Instance
  /-- `DIAG`, oldest record first (R25). -/
  diag : List DiagRecord
  /-- What is still to arrive: requests, with the timer events placed among them. -/
  inputs : List PortInput
  /-- The responses given so far, oldest first. -/
  responses : List Response
deriving DecidableEq, Repr

/-- Why the machine stops. No host request on a reachable state raises one. -/
inductive Fault where
  /-- Raised by a read of a configuration register that holds no value (R32 asks for this fault). Safe: no operation
  does so in a state the invariant allows. Log 9. -/
  | configUnset
  /-- Raised by `ASM_IDLE_FIRE` placed where R72 does not enable it. Safe: the spec has no such step. Log 3. -/
  | timerNotEnabled
deriving DecidableEq, Repr

/-- Why a step has no meaning. -/
inductive Refusal where
  /-- Raised by `exec` for an instruction that has no meaning yet. Safe: it stops. -/
  | notModelled (mnemonic : String)
deriving DecidableEq, Repr

/-- An Assembler instance after power-on (R32). -/
def Instance.reset : Instance :=
  { life := .unconfigured, cfg := none, buf := [], timerArmed := false, idleElapsed := 0, out := [] }

/-- The block after power-on (R32, R141): every instance at its reset values, `DIAG` empty, `PROP` its table, and
nothing at the request port yet (log 1). -/
def State.reset : State :=
  { params := Config.params
    prop := Config.propertyTable
    insts := List.replicate Config.params.instances Instance.reset
    diag := []
    inputs := []
    responses := [] }

end Sys2Proof.Machine
end

