-- ==== Sys2Proof/Machine/Ops.lean ====
section
/-! DEFINITION. The named operations over the state: answering a request, reporting an outcome, reaching an instance,
emitting a frame, recording a diagnostic (spec/00_scope.md R9, spec/60_exceptions.md R123, R124). -/

namespace Sys2Proof.Machine

/-- What a step answers. -/
abbrev Result := Host.Outcome State Fault Refusal

/-- `respond(status, payload)`: the response is given, nothing else changes (R9, R55). -/
def State.answer (s : State) (status : Status) (payload : Payload) : State :=
  { s with responses := s.responses ++ [⟨status, payload⟩] }

/-- Instance `k` gets a new value; the others stay (R33). -/
def State.setInst (s : State) (k : Nat) (x : Instance) : State := { s with insts := s.insts.set k x }

/-- One record is appended to `DIAG` (R25, R131). -/
def State.addDiag (s : State) (e : EncError) : State := { s with diag := s.diag ++ [⟨e⟩] }

/-- The next input has been taken (R45). -/
def State.takeInput (s : State) (rest : List PortInput) : State := { s with inputs := rest }

/-- `emit(f)` (R9, R24). -/
def Instance.emit (x : Instance) (f : Bytes) : Instance := { x with out := x.out ++ [f] }

/-- `if len(f) > 0 then emit(f)`: an emission never produces an empty frame (R67, R72, R73, R76). -/
def Instance.emitNonempty (x : Instance) (f : Bytes) : Instance := if f = [] then x else x.emit f

/-- `respond(OK, payload)`. -/
def respondOk (s : State) (payload : Payload) : Result := .next (s.answer .ok payload)

/-- `raise`: the operation ends with an error outcome. The block has no traps: an outcome is a response, and the state
it is given in already holds the write-back the outcome's rule states (R9, R123, R124, R134). -/
def raiseOutcome (s : State) (status : Status) (payload : Payload) : Result := .next (s.answer status payload)

/-- Ends an operation with an encode error or with the payload of its success; no `DIAG` record (R81, R131). -/
def respondExcept {α : Type} (s : State) (failed : Payload) (payload : α → Payload) : Except EncError α → Result
  | .ok a => respondOk s (payload a)
  | .error e => raiseOutcome s (.encError e) failed

/-- Runs an operation on the instance `INST` names; an instance that does not exist is a malformed request
(R57, R60): log 14. -/
def withInstance (s : State) (inst : Byte) (run : Instance → Result) : Result :=
  match s.insts[inst.toNat]? with
  | none => raiseOutcome s .malformedRequest .none
  | some x => run x

/-- `require LIFE ∈ lives else raise STATE_ERROR` (R126). -/
def requireLife (s : State) (x : Instance) (lives : List Life) (run : Result) : Result :=
  if x.life ∈ lives then run else raiseOutcome s .stateError .none

/-- Reads the configuration registers; without a value the read is a fault, as R32 and spec/93_implementation_defined.md
section 2 ask, which no operation reaches: log 9. -/
def withConfig (x : Instance) (run : AsmConfig → Result) : Result :=
  match x.cfg with
  | none => .fault .configUnset
  | some c => run c

/-- The idle timer's pending condition, the enabling condition of `ASM_IDLE_FIRE` (R72, R132). -/
def timerPending (x : Instance) : Bool :=
  decide (x.life = .running) && x.timerArmed &&
    match x.cfg with
    | none => false
    | some c => decide (c.idle.toNat ≤ x.idleElapsed.toNat)

/-- The lowest-numbered instance whose timer event is pending, among the 256 a number of 8 bits can name (R55):
log 2, log 13. -/
def State.pendingTimer (s : State) : Option Byte :=
  ((s.insts.take 256).findIdx? timerPending).map (BitVec.ofNat 8)

end Sys2Proof.Machine
end

