-- ==== Sys2Proof/Machine/Assembler.lean ====
section
/-! DEFINITION. The Frame Assembler operations and the timer event (spec/40_assembler.md R66 to R74). -/

namespace Sys2Proof.Machine

/-- What `ASM_CONFIGURE` discards first: the buffer without an emission, the timer, and the old configuration; `OUT`
stays (R66, R125, R142). -/
def discarded (x : Instance) : Instance :=
  { x with life := .unconfigured, cfg := none, buf := [], timerArmed := false, idleElapsed := 0 }

/-- The configuration an `ASM_CONFIGURE` asks for, the defaults of R57 applied (R66). -/
def configOf (flags : CfgFlags) (boundary : Bytes) (maxBuf idle : U32) : AsmConfig :=
  { boundary := boundary
    includeBoundary := if flags.inclDef then true else flags.incl
    maxBuf := if flags.maxDef then 65535 else maxBuf
    idle := if flags.idleDef then 3000 else idle }

/-- The first check of R66 a configuration fails, in the order of R66 and R130. -/
def configProblem (p : Params) (c : AsmConfig) : Option ConfigError :=
  if c.boundary.length < 1 then some .emptyBoundary
  else if p.boundaryMax < c.boundary.length then some .boundaryTooLong
  else if ¬ (1 ≤ c.maxBuf.toNat ∧ c.maxBuf.toNat ≤ p.maxBufferLimit) then some .badMaxBuf
  else if ¬ (1 ≤ c.idle.toNat ∧ c.idle.toNat ≤ p.idleLimit) then some .badIdle
  else none

/-- What a push makes of the combined buffer: the frame to emit (empty for none) and what stays in `BUF`. -/
structure Cut where
  frame : Bytes
  rest : Bytes
deriving DecidableEq, Repr

/-- Steps 3 to 6 of R67: the cap first, then the first boundary, else accumulate. -/
def cutBuffer (c : AsmConfig) (comb : Bytes) : Cut :=
  if c.maxBuf.toNat ≤ comb.length then ⟨comb.take c.maxBuf.toNat, []⟩
  else
    match find comb c.boundary with
    | some p => ⟨comb.take (if c.includeBoundary then p + c.boundary.length else p), []⟩
    | none => ⟨[], comb⟩

/-- The instance after an accepted push: cut, timer armed afresh (R67). -/
def pushed (x : Instance) (c : AsmConfig) (chunk : Bytes) : Instance :=
  let cut := cutBuffer c (x.buf ++ chunk)
  { x.emitNonempty cut.frame with buf := cut.rest, timerArmed := true, idleElapsed := 0 }

/-- `ASM_CONFIGURE` (R66): legal in every `LIFE` state. -/
def execAsmConfigure (inst : Byte) (flags : CfgFlags) (boundary : Bytes) (maxBuf idle : U32) (s : State) : Result :=
  withInstance s inst fun x =>
    let c := configOf flags boundary maxBuf idle
    match configProblem s.params c with
    | some e => raiseOutcome (s.setInst inst.toNat (discarded x)) .configError (.configError e)
    | none => respondOk (s.setInst inst.toNat { discarded x with life := .running, cfg := some c }) .none

/-- `ASM_PUSH` (R67). -/
def execAsmPush (inst : Byte) (chunk : Bytes) (s : State) : Result :=
  withInstance s inst fun x =>
    requireLife s x [.running] <|
      withConfig x fun c => respondOk (s.setInst inst.toNat (pushed x c chunk)) .none

/-- `ASM_TICK` (R71): time counts only while the timer is armed. -/
def execAsmTick (inst : Byte) (ms : U32) (s : State) : Result :=
  withInstance s inst fun x =>
    requireLife s x [.running] <|
      if x.timerArmed then
        withConfig x fun c =>
          respondOk (s.setInst inst.toNat { x with idleElapsed := elapse x.idleElapsed ms c.idle }) .none
      else respondOk s .none

/-- `ASM_IDLE_FIRE` (R72): the idle flush; the event has no response. Placed where it is not enabled it is no step of
the block: log 3. -/
def execAsmIdleFire (inst : Byte) (s : State) : Result :=
  match s.insts[inst.toNat]? with
  | none => .fault .timerNotEnabled
  | some x =>
    if timerPending x then .next (s.setInst inst.toNat { x.emitNonempty x.buf with buf := [], timerArmed := false })
    else .fault .timerNotEnabled

/-- `ASM_END` (R73): the residual buffer is emitted as the final frame. -/
def execAsmEnd (inst : Byte) (s : State) : Result :=
  withInstance s inst fun x =>
    requireLife s x [.running] <|
      respondOk
        (s.setInst inst.toNat { x.emitNonempty x.buf with buf := [], timerArmed := false, life := .closed }) .none

/-- `ASM_DESTROY` (R74): the residual buffer is discarded, not emitted. -/
def execAsmDestroy (inst : Byte) (s : State) : Result :=
  withInstance s inst fun x =>
    requireLife s x [.running, .closed] <|
      respondOk (s.setInst inst.toNat { x with buf := [], timerArmed := false, life := .destroyed }) .none

end Sys2Proof.Machine
end

