-- ==== Sys2Proof/Machine/Codec.lean ====
section
/-! DEFINITION. `CODEC_ENCODE`, `CODEC_DECODE`, the wire command rows the decoder dispatches to, and the reserved
operation codes (spec/42_encode.md, spec/43_decode.md, spec/30_encoding.md R54, R58). A wire row runs its own arm on any
frame that reaches the dispatch, whatever its command byte: log 20. -/

namespace Sys2Proof.Machine

/-- `CODEC_ENCODE` (R100): a failure answers an empty result and leaves one `DIAG` record. -/
def execCodecEncode (digits : Bytes) (cmd : Byte) (name : Str) (s : State) : Result :=
  match encodeFrame s.prop digits cmd name with
  | .ok frame => respondOk s (.bytes frame)
  | .error e => raiseOutcome (s.addDiag e) (.encError e) (.bytes [])

/-- A decode's response: always OK, the outcome in the record (R105, R120). -/
def respondDecoded (s : State) (r : DecodeResult) : Result := respondOk s (.decoded r)

/-- `CODEC_DECODE` (R105). -/
def execCodecDecode (frame : Bytes) (s : State) : Result := respondDecoded s (decodeFrame s.prop frame)

/-- Command code 11, the read request: no arm of its own, decoded as an unknown command (R54, R118). -/
def execWireReadRequest (frame : Bytes) (s : State) : Result :=
  respondDecoded s (decodeWith (unknownCommand frame) frame)

/-- Command code 91 (R113 to R116). -/
def execWireReadResponse (frame : Bytes) (s : State) : Result :=
  respondDecoded s (decodeWith (response91 s.prop frame) frame)

/-- Command code B1, decoded exactly as 91 (R54, R113). -/
def execWireReadResponseMore (frame : Bytes) (s : State) : Result :=
  respondDecoded s (decodeWith (response91 s.prop frame) frame)

/-- Command code D1 (R117). -/
def execWireErrorResponse (frame : Bytes) (s : State) : Result :=
  respondDecoded s (decodeWith (errorResponse frame) frame)

/-- Every other command code (R118). -/
def execWireOtherCommand (frame : Bytes) (s : State) : Result :=
  respondDecoded s (decodeWith (unknownCommand frame) frame)

/-- A reserved operation code: answered RESERVED_OP, no state change (R58, R127). -/
def execReservedOp (_op : Byte) (_rest : Bytes) (s : State) : Result := raiseOutcome s .reservedOp .none

end Sys2Proof.Machine
end

