-- ==== Sys2Proof/Machine/CodecUnits.lean ====
section
/-! DEFINITION. The unit operations: each exposes one sub-unit of the Codec, writes no state and no `DIAG` record
(spec/41_codec_units.md R81 to R93). -/

namespace Sys2Proof.Machine

/-- `U_SERIAL_PACK` (R82). -/
def execUSerialPack (digits : Bytes) (s : State) : Result :=
  respondExcept s (.bytes []) (fun ser => .bytes ser.toList) (serialPack digits)

/-- `U_SERIAL_UNPACK` (R83). -/
def execUSerialUnpack (ser : Serial) (s : State) : Result := respondOk s (.str (serialUnpack ser))

/-- `U_BIAS_ADD` (R84). -/
def execUBiasAdd (b : Byte) (s : State) : Result := respondOk s (.byte (biasAdd b))

/-- `U_BIAS_SUB` (R85). -/
def execUBiasSub (b : Byte) (s : State) : Result := respondOk s (.byte (biasSub b))

/-- `U_CHECKSUM_GEN` (R86). -/
def execUChecksumGen (data : Bytes) (s : State) : Result := respondOk s (.byte (checksum data))

/-- `U_CHECKSUM_VERIFY` (R87). -/
def execUChecksumVerify (data : Bytes) (cs : Byte) (s : State) : Result := respondOk s (.bit (checksumOk data cs))

/-- `U_PROP_BY_NAME` (R88). -/
def execUPropByName (name : Str) (s : State) : Result :=
  respondExcept s .none (fun code => .bytes code.toList) (propByName s.prop name)

/-- `U_PROP_BY_CODE` (R89): a miss is a result, not an error. -/
def execUPropByCode (code : Code) (s : State) : Result :=
  respondOk s (.lookup ((propByCode s.prop code).map fun e => (e.name, entryScale e)))

/-- `U_PAIR_VALUE` (R90). -/
def execUPairValue (b : Byte) (s : State) : Result := respondOk s (.nat (pairValue b))

/-- `U_BCD_VALUE` (R91). -/
def execUBcdValue (data : Bytes) (s : State) : Result := respondOk s (.nat (bcdValue data))

/-- `U_SCALE` (R92): the raw operand is an unsigned little-endian integer (R61). -/
def execUScale (raw : Bytes) (name : Str) (s : State) : Result :=
  respondExcept s .none .rat (scaleByName s.prop (leNat raw) name)

/-- `U_HEX2` (R93). -/
def execUHex2 (b : Byte) (s : State) : Result := respondOk s (.str (hex2 b))

end Sys2Proof.Machine
end

