-- ==== Sys2Proof/Machine/Dispatch.lean ====
section
/-! DEFINITION. The dispatch: one arm per instruction, each a call of its meaning. -/

namespace Sys2Proof.Machine

def exec (i : Instr) (s : State) : Host.Outcome State Fault Refusal :=
  match i with
  | .asmConfigure inst flags boundary maxBuf idle => Sys2Proof.Machine.execAsmConfigure inst flags boundary maxBuf idle s
  | .asmPush inst chunk => Sys2Proof.Machine.execAsmPush inst chunk s
  | .asmTick inst ms => Sys2Proof.Machine.execAsmTick inst ms s
  | .asmIdleFire inst => Sys2Proof.Machine.execAsmIdleFire inst s
  | .asmEnd inst => Sys2Proof.Machine.execAsmEnd inst s
  | .asmDestroy inst => Sys2Proof.Machine.execAsmDestroy inst s
  | .codecEncode digits cmd name => Sys2Proof.Machine.execCodecEncode digits cmd name s
  | .codecDecode frame => Sys2Proof.Machine.execCodecDecode frame s
  | .uSerialPack digits => Sys2Proof.Machine.execUSerialPack digits s
  | .uSerialUnpack ser => Sys2Proof.Machine.execUSerialUnpack ser s
  | .uBiasAdd b => Sys2Proof.Machine.execUBiasAdd b s
  | .uBiasSub b => Sys2Proof.Machine.execUBiasSub b s
  | .uChecksumGen data => Sys2Proof.Machine.execUChecksumGen data s
  | .uChecksumVerify data cs => Sys2Proof.Machine.execUChecksumVerify data cs s
  | .uPropByName name => Sys2Proof.Machine.execUPropByName name s
  | .uPropByCode code => Sys2Proof.Machine.execUPropByCode code s
  | .uPairValue b => Sys2Proof.Machine.execUPairValue b s
  | .uBcdValue data => Sys2Proof.Machine.execUBcdValue data s
  | .uScale raw name => Sys2Proof.Machine.execUScale raw name s
  | .uHex2 b => Sys2Proof.Machine.execUHex2 b s
  | .reservedOp op rest => Sys2Proof.Machine.execReservedOp op rest s
  | .wireReadRequest frame => Sys2Proof.Machine.execWireReadRequest frame s
  | .wireReadResponse frame => Sys2Proof.Machine.execWireReadResponse frame s
  | .wireReadResponseMore frame => Sys2Proof.Machine.execWireReadResponseMore frame s
  | .wireErrorResponse frame => Sys2Proof.Machine.execWireErrorResponse frame s
  | .wireOtherCommand frame => Sys2Proof.Machine.execWireOtherCommand frame s

end Sys2Proof.Machine
end

