-- ==== Sys2Proof/Machine/Fetch.lean ====
section
/-! DEFINITION. Taking the next input: a request is decoded and run, a malformed one answered, a timer event run; and
what the block does when nothing arrives (spec/30_encoding.md R55, R60, spec/40_assembler.md R72, R77). -/

namespace Sys2Proof.Machine

/-- Runs one input on a state it has been taken from (R55, R60, R127). -/
def runInput (i : PortInput) (s : State) : Result :=
  match decodeInput s.params i with
  | .ok instr => exec instr s
  | .error _ => raiseOutcome s .malformedRequest .none

/-- With nothing to arrive, a pending timer event happens, the lowest-numbered instance's first (weak fairness, R77);
with none pending the block waits unchanged: log 2. -/
def runIdle (s : State) : Result :=
  match s.pendingTimer with
  | some inst => exec (.asmIdleFire inst) s
  | none => .next s

/-- The word of an opcode-table row placed as the block's next input: log 1, log 15. -/
def placeTableWord (s : State) (nbits w : Nat) : State := { s with inputs := tableInput nbits w :: s.inputs }

end Sys2Proof.Machine
end

