-- ==== Sys2Proof/Machine/Step.lean ====
section
/-! DEFINITION. One step of the block, and where an instruction is placed for the next step. -/

namespace Sys2Proof.Machine

/-- One step: the next input is taken and run (spec/20_memory.md R44, R45). -/
def step (s : State) : Host.Outcome State Fault Refusal :=
  match s.inputs with
  | [] => runIdle s
  | i :: rest => runInput i (s.takeInput rest)

/-- `s` with the instruction of a table word as its next input. -/
def State.withFetchWord (s : State) (nbits w : Nat) : State := placeTableWord s nbits w

end Sys2Proof.Machine
end

