-- ==== Sys2Proof/Safety.lean ====
section
/-! DEFINITION. What holds of every reachable state of the block, in the terms the claims use (spec/10_state.md R16 to
R26, spec/40_assembler.md R76), and when a step cannot fault. -/

namespace Sys2Proof.Machine

/-- A configuration `ASM_CONFIGURE` can have written (R17, R19, R20). -/
abbrev AsmConfig.Legal (p : Params) (c : AsmConfig) : Prop :=
  1 ≤ c.boundary.length ∧ c.boundary.length ≤ p.boundaryMax ∧
  1 ≤ c.maxBuf.toNat ∧ c.maxBuf.toNat ≤ p.maxBufferLimit ∧
  1 ≤ c.idle.toNat ∧ c.idle.toNat ≤ p.idleLimit

/-- What `LIFE` says of the rest of an instance: `BUF` stays below the cap and free of the boundary while running
(R21); outside, the buffer is empty and the timer disarmed (R66, R73, R74). -/
abbrev LifeInv (x : Instance) (c : AsmConfig) : Prop :=
  match x.life with
  | .running => x.buf.length < c.maxBuf.toNat ∧ find x.buf c.boundary = none
  | _ => x.buf = [] ∧ x.timerArmed = false

/-- The invariant of one instance. `OUT` outlives a reconfiguration (R66), so its frames are bounded by the largest
legal cap, not by the present one. -/
abbrev Instance.Inv (p : Params) (x : Instance) : Prop :=
  (match x.cfg with
   | none => x.life = .unconfigured ∧ x.buf = [] ∧ x.timerArmed = false ∧ x.idleElapsed = 0
   | some c => x.life ≠ .unconfigured ∧ c.Legal p ∧ x.idleElapsed.toNat ≤ c.idle.toNat ∧ LifeInv x c) ∧
  ∀ f ∈ x.out, 1 ≤ f.length ∧ f.length ≤ p.maxBufferLimit

/-- The invariant of the whole block. -/
abbrev State.Inv (s : State) : Prop :=
  s.params.Legal ∧ TableLegal s.prop ∧ s.insts.length = s.params.instances ∧ ∀ x ∈ s.insts, x.Inv s.params

/-- The next input is no timer event placed where R72 does not enable it. -/
abbrev State.ScheduleOk (s : State) : Prop :=
  match s.inputs with
  | .timer inst :: _ =>
    match s.insts[inst.toNat]? with
    | none => False
    | some x => timerPending x = true
  | _ => True

end Sys2Proof.Machine
end

