-- ==== Sys2Proof/Certificates/Slice0/Obligations.lean ====
section
/-! DEFINITION. The statements for the provers, each formalising rules of spec/ (the docstrings say which). -/

open Sys2Proof Sys2Proof.Machine

/-! ## Words of the statements -/

/-- The block answers a request with a response and changes nothing else (R9, R55). -/
def Sys2Proof.Claims.answered (s : State) (status : Status) (payload : Payload) : State :=
  { s with responses := s.responses ++ [⟨status, payload⟩] }

/-- Instance `inst` becomes `x`, the request is answered, and nothing else changes (R33, R55). -/
def Sys2Proof.Claims.updated (s : State) (inst : Byte) (x : Instance) (status : Status) (payload : Payload) : State :=
  { s with insts := s.insts.set inst.toNat x, responses := s.responses ++ [⟨status, payload⟩] }

/-- Instance `inst` becomes `x`, and nothing else changes. -/
def Sys2Proof.Claims.replaced (s : State) (inst : Byte) (x : Instance) : State :=
  { s with insts := s.insts.set inst.toNat x }

/-- The instance `inst` names exists, runs, and has the configuration `c`. -/
def Sys2Proof.Claims.Runs (s : State) (inst : Byte) (x : Instance) (c : AsmConfig) : Prop :=
  s.insts[inst.toNat]? = some x ∧ x.life = .running ∧ x.cfg = some c

/-- `pat` occurs in `s` at index `p`. -/
def Sys2Proof.Claims.OccursAt (s pat : Bytes) (p : Nat) : Prop :=
  p + pat.length ≤ s.length ∧ slice s p (p + pat.length) = pat

/-- `p` is the least index at which `pat` occurs in `s`. -/
def Sys2Proof.Claims.FirstAt (s pat : Bytes) (p : Nat) : Prop :=
  Claims.OccursAt s pat p ∧ ∀ k, k < p → ¬ Claims.OccursAt s pat k

/-- The frame a boundary match at `p` cuts, empty where nothing may be emitted (R67, R69). -/
def Sys2Proof.Claims.boundaryFrame (c : AsmConfig) (comb : Bytes) (p : Nat) : Bytes :=
  if c.includeBoundary then comb.take (p + c.boundary.length) else comb.take p

/-- The output stream with one more frame, unless the frame is empty (R67, R76). -/
def Sys2Proof.Claims.emitted (out : List Bytes) (f : Bytes) : List Bytes := if f = [] then out else out ++ [f]

/-- What a push of `chunk` onto `buf` leaves of a running instance: the timer armed afresh, and the cap first, then the
first boundary, else accumulation (R67). -/
def Sys2Proof.Claims.AfterPush (c : AsmConfig) (buf chunk : Bytes) (out : List Bytes) (y : Instance) : Prop :=
  y.life = .running ∧ y.cfg = some c ∧ y.timerArmed = true ∧ y.idleElapsed = 0 ∧
  (c.maxBuf.toNat ≤ (buf ++ chunk).length → y.buf = [] ∧ y.out = out ++ [(buf ++ chunk).take c.maxBuf.toNat]) ∧
  ((buf ++ chunk).length < c.maxBuf.toNat →
    (∀ p, Claims.FirstAt (buf ++ chunk) c.boundary p →
      y.buf = [] ∧ y.out = Claims.emitted out (Claims.boundaryFrame c (buf ++ chunk) p)) ∧
    ((∀ p, ¬ Claims.OccursAt (buf ++ chunk) c.boundary p) → y.buf = buf ++ chunk ∧ y.out = out))

/-- Several instructions one after the other, each required to answer a next state. -/
def Sys2Proof.Claims.execAll : List Instr → State → Option State
  | [], s => some s
  | i :: rest, s =>
    match exec i s with
    | .next t => Sys2Proof.Claims.execAll rest t
    | _ => none

/-- The sum of the bytes as natural numbers. -/
def Sys2Proof.Claims.byteSum (s : Bytes) : Nat := (s.map BitVec.toNat).sum

/-- The digit of a serial number with weight `10^w`, 0 where the number has no such digit (R82). -/
def Sys2Proof.Claims.digitOfWeight (digits : Bytes) (w : Nat) : Nat :=
  if w < digits.length then (byteAt digits (digits.length - 1 - w)).toNat else 0

/-- Every digit is at most 9 and there are at most 12 (R82). -/
def Sys2Proof.Claims.ValidDigits (digits : Bytes) : Prop := digits.length ≤ 12 ∧ ∀ d ∈ digits, d.toNat ≤ 9

/-- A byte both of whose nibbles are decimal digits (R90). -/
def Sys2Proof.Claims.IsBcd (b : Byte) : Prop := b.toNat / 16 ≤ 9 ∧ b.toNat % 16 ≤ 9

/-- The characters of decimal digits: "0" has code 48. -/
def Sys2Proof.Claims.digitChars (digits : Bytes) : Str := digits.map (· + 48)

/-- An entry's scale as a rational number (R26). -/
def Sys2Proof.Claims.scale (e : PropEntry) : Rat := (e.scaleNum : Rat) / 10 ^ e.scaleExp

/-- `start`, `div` and `stop` are the first and the last 0x68 of `f`, two different ones, and its first 0x16 (R106). -/
def Sys2Proof.Claims.Positions (f : Bytes) (start div stop : Nat) : Prop :=
  start < div ∧ div < f.length ∧ stop < f.length ∧
  byteAt f start = 0x68 ∧ (∀ k, k < start → byteAt f k ≠ 0x68) ∧
  byteAt f div = 0x68 ∧ (∀ k, div < k → k < f.length → byteAt f k ≠ 0x68) ∧
  byteAt f stop = 0x16 ∧ (∀ k, k < stop → byteAt f k ≠ 0x16)

/-- The checksum of a located frame is right (R109). -/
def Sys2Proof.Claims.SumOk (f : Bytes) (start stop : Nat) : Prop :=
  Claims.byteSum (slice f start (stop - 1)) % 256 = (byteAt f (stop - 1)).toNat

/-- A frame that reaches the command dispatch (R106 to R110). -/
def Sys2Proof.Claims.Dispatched (f : Bytes) (start div stop : Nat) : Prop :=
  Claims.Positions f start div stop ∧ start + 1 < stop ∧ Claims.SumOk f start stop ∧
  div = start + 7 ∧ div + 2 < stop

/-- The serial number a dispatched frame carries, rendered (R83, R111). -/
def Sys2Proof.Claims.serialText (f : Bytes) (start : Nat) : Str :=
  (((slice f (start + 1) (start + 7)).reverse.dropWhile (· == 0)).map hex2).flatten

/-- The record of an outcome that carries a serial number and a command code (R108). -/
def Sys2Proof.Claims.record (kind : DecodeKind) (f : Bytes) (start div : Nat) (status : Bool) (name : Str)
    (value : DecodeValue) : DecodeResult :=
  { kind := kind, sub := none, serialNumber := Claims.serialText f start,
    commandCode := hex2 (byteAt f (div + 1)), status := status, propertyName := name, value := value }

/-- The scaled value of a response of entry `e`: its unbiased value pairs, `len - 4` of them after the code at `div+3`,
summed and scaled exactly (R114, R115). -/
def Sys2Proof.Claims.readValue (f : Bytes) (div len : Nat) (e : PropEntry) : Rat :=
  ((∑ i ∈ Finset.range (len - 4), pairValue (byteAt f (div + 7 + i) - 0x33) * 100 ^ i : Nat) : Rat) * Claims.scale e

/-- The fields of a response of entry `e`: its length byte `len` ends at the checksum, and its code is the entry's,
reversed and biased (R113, R114). -/
def Sys2Proof.Claims.ResponseOf (f : Bytes) (div stop len : Nat) (e : PropEntry) : Prop :=
  (byteAt f (div + 2)).toNat = len ∧ 4 ≤ len ∧ div + 3 + len = stop - 1 ∧
  slice f (div + 3) (div + 7) = [e.code.b3 + 0x33, e.code.b2 + 0x33, e.code.b1 + 0x33, e.code.b0 + 0x33]

/-- The record of a structural result (R119). -/
def Sys2Proof.Claims.structural (sub : Structural) : DecodeResult :=
  { kind := .structural, sub := some sub, serialNumber := [], commandCode := [], status := false,
    propertyName := Str.ofChars ['e', 'r', 'r', 'C', 'o', 'd', 'e'], value := .diag sub }

/-- The record of a checksum mismatch (R109). -/
def Sys2Proof.Claims.mismatch : DecodeResult :=
  { kind := .checksumMismatch, sub := none, serialNumber := [], commandCode := [], status := false,
    propertyName := Str.ofChars ['e', 'r', 'r', 'C', 'o', 'd', 'e'],
    value := .text (Str.ofChars ['c', 's', 'C', 'h', 'e', 'c', 'k', ' ', 'E', 'r', 'r', 'o', 'r']) }

/-- The instance an instruction addresses, if it addresses one (R33, R55). -/
def Sys2Proof.Claims.addressed : Instr → Option Nat
  | .asmConfigure inst _ _ _ _ => some inst.toNat
  | .asmPush inst _ => some inst.toNat
  | .asmTick inst _ => some inst.toNat
  | .asmIdleFire inst => some inst.toNat
  | .asmEnd inst => some inst.toNat
  | .asmDestroy inst => some inst.toNat
  | _ => none

/-- The limits the test vectors of spec/95_test_vectors.md assume: four instances, the OPEN limits at their largest. -/
def Sys2Proof.Claims.vectorParams : Params := ⟨255, 2 ^ 32 - 1, 2 ^ 32 - 1, 65535, 65535, 4⟩

/-- The reserved operation codes as R58 lists them. -/
def Sys2Proof.Claims.Reserved (op : Byte) : Prop :=
  op.toNat = 0x00 ∨ op.toNat = 0x04 ∨ (0x07 ≤ op.toNat ∧ op.toNat ≤ 0x0F) ∨
  (0x12 ≤ op.toNat ∧ op.toNat ≤ 0x1F) ∨ 0x2C ≤ op.toNat

/-- A malformed request as R60 lists them. -/
def Sys2Proof.Claims.MalformedRequest (p : Params) (q : Bytes) : Prop :=
  requestLength q ≠ q.length ∨
  (byteAt q 0 = 0x01 ∧ 16 ≤ (byteAt q 2).toNat) ∨
  (byteAt q 0 ∈ ([0x01, 0x02, 0x03, 0x05, 0x06] : List Byte) ∧ p.instances ≤ (byteAt q 1).toNat) ∨
  (byteAt q 0 = 0x02 ∧ p.chunkMax < u16At q 2) ∨
  (byteAt q 0 = 0x11 ∧ p.decMax < u16At q 2)

/-! ## The request port and encodings -/

/-- Decoding what an instruction is encoded as (R56, R57) gives it back with every operand, whatever the operands, for
every well-formed instruction. That a wire row is encoded as a `CODEC_DECODE` request, and that a `CODEC_DECODE` whose
frame reaches the command dispatch comes back as the wire row of its command (`refine`), is the model's choice of
log 15; every other instruction is its own refinement. -/
def Obligations.DecodeEncodeRoundTrip : Prop :=
  ∀ (p : Params) (i : Instr), i.wellFormed p = true →
    decodeInput p (encodeInput i) = .ok (refine i) ∧ ((∀ f, i ≠ .codecDecode f) → refine i = i)

/-- The numbers the spec fixes: statuses and the sub-codes of CONFIG_ERROR (R124), decode kinds (R129), structural
sub-codes and the 0 of a record without one (R119, R108), lifecycle states (R16). -/
def Obligations.NumericCodes : Prop :=
  (Status.number .ok = 0x00 ∧ Status.number .configError = 0x01 ∧ Status.number .stateError = 0x02 ∧
    Status.number .reservedOp = 0x03 ∧ Status.number .malformedRequest = 0x04 ∧
    Status.number (.encError .serialOverflow) = 0x10 ∧ Status.number (.encError .unknownProperty) = 0x11 ∧
    Status.number (.encError .invalidDigit) = 0x12) ∧
  (ConfigError.number .emptyBoundary = 1 ∧ ConfigError.number .boundaryTooLong = 2 ∧
    ConfigError.number .badMaxBuf = 3 ∧ ConfigError.number .badIdle = 4) ∧
  (DecodeKind.number .ok = 0x20 ∧ DecodeKind.number .checksumMismatch = 0x21 ∧ DecodeKind.number .structural = 0x22 ∧
    DecodeKind.number .unknownCommand = 0x23 ∧ DecodeKind.number .unknownProperty = 0x24 ∧
    DecodeKind.number .errorResponse = 0x25) ∧
  (Structural.number .noDivider = 1 ∧ Structural.number .oneDivider = 2 ∧ Structural.number .noTerminator = 3 ∧
    Structural.number .order = 4 ∧ Structural.number .serialField = 5 ∧ Structural.number .short = 6 ∧
    Structural.number .length = 7 ∧ subNumber none = 0 ∧ ∀ x, subNumber (some x) = Structural.number x) ∧
  (Life.number .unconfigured = 0 ∧ Life.number .running = 1 ∧ Life.number .closed = 2 ∧ Life.number .destroyed = 3)

/-- Words written out from the layouts of R57 and the vectors of spec/95_test_vectors.md decode to the instructions
they stand for. -/
def Obligations.SpecWordsDecode : Prop :=
  decodeRequest Claims.vectorParams [0x01, 0x02, 0x08, 0x02, 0x0D, 0x0A, 0x10, 0, 0, 0, 0, 0, 0, 0] =
    .ok (.asmConfigure 2 ⟨false, false, false, true⟩ [0x0D, 0x0A] 16 0) ∧
  decodeRequest Claims.vectorParams [0x02, 0x01, 0x03, 0x00, 0x68, 0x43, 0x10] = .ok (.asmPush 1 [0x68, 0x43, 0x10]) ∧
  decodeRequest Claims.vectorParams [0x03, 0x00, 0xE8, 0x03, 0x00, 0x00] = .ok (.asmTick 0 1000) ∧
  decodeRequest Claims.vectorParams [0x10, 0, 0x02, 0x06, 0x01, 0x11, 0x06, 0x65, 0x6C, 0x65, 0x63, 0x55, 0x61] =
    .ok (.codecEncode [6, 1] 0x11 [0x65, 0x6C, 0x65, 0x63, 0x55, 0x61]) ∧
  decodeRequest Claims.vectorParams [0x25, 0x00, 0x02, 0x00, 0xFF, 0xFE, 0xFD] =
    .ok (.uChecksumVerify [0xFF, 0xFE] 0xFD) ∧
  decodeRequest Claims.vectorParams [0x2A, 0x00, 0x02, 0xE8, 0x03, 0x01, 0x6E] = .ok (.uScale [0xE8, 0x03] [0x6E]) ∧
  decodeRequest Claims.vectorParams [0x04, 0x00] = .ok (.reservedOp 0x04 [0x00]) ∧
  decodeRequest Claims.vectorParams [0x01, 0x00, 0x1E, 0x01, 0x16, 0, 0, 0, 0, 0, 0, 0, 0] = .error .reservedFlags ∧
  decodeRequest Claims.vectorParams [0x05, 0x04] = .error .noInstance

/-- R58, R127: a request with a reserved code is answered RESERVED_OP and changes no state; the instruction it decodes
to does the same by itself. -/
def Obligations.ReservedCodesRefused : Prop :=
  ∀ (s : State) (op : Byte) (rest : Bytes) (more : List PortInput),
    Claims.Reserved op → s.inputs = .request (op :: rest) :: more →
      step s = .next (Claims.answered { s with inputs := more } .reservedOp .none) ∧
      exec (.reservedOp op rest) s = .next (Claims.answered s .reservedOp .none)

/-- R60: a request with an accepted code is answered MALFORMED_REQUEST, and changes no state, the timers included,
when it is malformed, whatever the operation's own checks would say; it decodes to an instruction when it is not. -/
def Obligations.MalformedRequestsRefused : Prop :=
  ∀ (s : State) (op : Byte) (rest : Bytes) (more : List PortInput),
    s.inputs = .request (op :: rest) :: more → ¬ Claims.Reserved op →
      (Claims.MalformedRequest s.params (op :: rest) →
        step s = .next (Claims.answered { s with inputs := more } .malformedRequest .none)) ∧
      (¬ Claims.MalformedRequest s.params (op :: rest) → ∃ i, decodeRequest s.params (op :: rest) = .ok i)

/-- A step takes the next input and runs the instruction it decodes to on the state without that input; an input that
decodes to none is answered MALFORMED_REQUEST, and a request of no bytes is one (log 12). -/
def Obligations.StepRunsDecodedInstruction : Prop :=
  ∀ (s : State) (x : PortInput) (more : List PortInput), s.inputs = x :: more →
    (∀ i, decodeInput s.params x = .ok i → step s = exec i { s with inputs := more }) ∧
    (∀ e, decodeInput s.params x = .error e →
      step s = .next (Claims.answered { s with inputs := more } .malformedRequest .none)) ∧
    (x = .request [] → ∃ e, decodeInput s.params x = .error e)

/-- The model's choice of log 2 (an admitted schedule of R77): with nothing to arrive, the lowest-numbered pending timer
event among the first 256 instances happens; with none pending the block stays as it is. -/
def Obligations.IdleStepFiresPendingTimer : Prop :=
  ∀ s : State, s.inputs = [] →
    ((∀ (k : Nat) (x : Instance), k < 256 → s.insts[k]? = some x → timerPending x = false) → step s = .next s) ∧
    (∀ (k : Nat) (x : Instance), k < 256 → s.insts[k]? = some x → timerPending x = true →
      (∀ (j : Nat) (y : Instance), j < k → s.insts[j]? = some y → timerPending y = false) →
      step s = exec (.asmIdleFire (BitVec.ofNat 8 k)) s)

/-- R55, R72: every request gets exactly one response, after those given before; a timer event gets none. -/
def Obligations.OneResponsePerRequest : Prop :=
  ∀ (s t : State) (x : PortInput) (more : List PortInput), s.inputs = x :: more → step s = .next t →
    match x with
    | .request _ => ∃ r, t.responses = s.responses ++ [r]
    | .timer _ => t.responses = s.responses

/-! ## Reset, the invariant, and what no step does -/

/-- R32, R141: after power-on every instance is `Unconfigured`, a read of its configuration faults, its buffer and
output stream are empty, its timer is disarmed at 0; there are INSTANCES of them, `DIAG` is empty, and `PROP` holds
"elecUa". -/
def Obligations.ResetValues : Prop :=
  State.reset.insts.length = State.reset.params.instances ∧
  (∀ x ∈ State.reset.insts,
    x.life = .unconfigured ∧ (∀ run, withConfig x run = .fault .configUnset) ∧ x.buf = [] ∧ x.timerArmed = false ∧
      x.idleElapsed = 0 ∧ x.out = []) ∧
  State.reset.diag = [] ∧
  (⟨[0x65, 0x6C, 0x65, 0x63, 0x55, 0x61], ⟨0x02, 0x01, 0x01, 0x00⟩, 1, 1⟩ : PropEntry) ∈ State.reset.prop

/-- The state after reset meets the invariant, whatever the OPEN parameters are (log 5, log 6). -/
def Obligations.ResetMeetsInvariant : Prop := State.reset.Inv

/-- The invariant of R16 to R26: limits and table stay legal, a running instance's buffer stays below the cap and free
of the boundary, a stopped one's is empty and its timer disarmed, the idle counter stays at most `CFG_IDLE`, a
configuration stays legal, every frame in `OUT` is non-empty and within the largest cap. Every step keeps it. -/
def Obligations.StepKeepsInvariant : Prop := ∀ s t : State, s.Inv → step s = .next t → t.Inv

/-- From every state that meets the invariant a step answers a next state, unless the next input is a timer event
placed where R72 does not enable it: no request stops the block (R120, R123, R134), and no configuration register is
read before it has a value (R32). -/
def Obligations.StepNeverStops : Prop := ∀ s : State, s.Inv → s.ScheduleOk → ∃ t, step s = .next t

/-- R7, R26, R48: no step changes the Property Table or the block's limits, nor how many instances there are. -/
def Obligations.TableAndLimitsFixed : Prop :=
  ∀ s t : State, step s = .next t → t.prop = s.prop ∧ t.params = s.params ∧ t.insts.length = s.insts.length

/-- R24, R25, R45: no step takes back a frame, a diagnostic or a response, or changes their order. -/
def Obligations.StreamsOnlyGrow : Prop :=
  ∀ s t : State, step s = .next t →
    s.diag <+: t.diag ∧ s.responses <+: t.responses ∧
    ∀ (k : Nat) (x y : Instance), s.insts[k]? = some x → t.insts[k]? = some y → x.out <+: y.out

/-- R24, R44, R76: one step emits at most one frame, in one instance; only a push, a timer event or an end of stream
emits; the frame is non-empty and at most `CFG_MAXBUF` bytes long, and it is appended. -/
def Obligations.OneFramePerInstruction : Prop :=
  ∀ (s t : State) (i : Instr), s.Inv → exec i s = .next t →
    ∀ (k : Nat) (x y : Instance), s.insts[k]? = some x → t.insts[k]? = some y → y.out ≠ x.out →
      ((∃ chunk inst, i = .asmPush inst chunk ∧ inst.toNat = k) ∨ (∃ inst, i = .asmIdleFire inst ∧ inst.toNat = k) ∨
        (∃ inst, i = .asmEnd inst ∧ inst.toNat = k)) ∧
      ∃ f c, y.out = x.out ++ [f] ∧ x.cfg = some c ∧ 1 ≤ f.length ∧ f.length ≤ c.maxBuf.toNat

/-- R33, R28: an instruction leaves every instance alone but the one it addresses; Codec and unit requests, wire rows
and reserved codes leave all alone. -/
def Obligations.OtherInstancesUntouched : Prop :=
  ∀ (s t : State) (i : Instr) (k : Nat), exec i s = .next t → Claims.addressed i ≠ some k →
    t.insts[k]? = s.insts[k]?

/-- R34: the configuration registers have no write path but `ASM_CONFIGURE`. -/
def Obligations.OnlyConfigureWritesConfiguration : Prop :=
  ∀ (s t : State) (i : Instr), exec i s = .next t → (∀ inst fl bd mb idl, i ≠ .asmConfigure inst fl bd mb idl) →
    ∀ (k : Nat) (x y : Instance), s.insts[k]? = some x → t.insts[k]? = some y → y.cfg = x.cfg

/-- R25, R131: an instruction that leaves `DIAG` other than it was is a `CODEC_ENCODE` answered with an encode error,
and it has appended the one record of that error. -/
def Obligations.OnlyFailedEncodeWritesDiag : Prop :=
  ∀ (s t : State) (i : Instr), exec i s = .next t → t.diag ≠ s.diag →
    ∃ digits cmd name e, i = .codecEncode digits cmd name ∧ t.diag = s.diag ++ [⟨e⟩] ∧
      t.responses = s.responses ++ [⟨.encError e, .bytes []⟩]

/-- R4, R28: what a Codec or unit operation, a wire row or a reserved code answers and appends to `DIAG` depends on the
Property Table alone: on no instance, no earlier diagnostic and no earlier response. -/
def Obligations.CodecDependsOnTableAlone : Prop :=
  ∀ (i : Instr) (s1 s2 : State), Claims.addressed i = none → s1.prop = s2.prop →
    ∃ r d, exec i s1 = .next { s1 with responses := s1.responses ++ [r], diag := s1.diag ++ d } ∧
      exec i s2 = .next { s2 with responses := s2.responses ++ [r], diag := s2.diag ++ d }

/-! ## The Frame Assembler -/

/-- R66, R142, R57: `ASM_CONFIGURE` discards whatever the instance held, in every state of it, and keeps `OUT`. With
legal operands, defaults applied, it leaves the instance running with that configuration; otherwise it answers
CONFIG_ERROR with the sub-code of the first check that fails, in the order of R66 and R130, and leaves the instance
`Unconfigured` without configuration. Either way the buffer is empty and the timer disarmed. -/
def Obligations.ConfigureStartsOrRefuses : Prop :=
  ∀ (s : State) (inst : Byte) (fl : CfgFlags) (bd : Bytes) (mb idl maxb idle : U32) (incl : Bool) (x : Instance),
    s.insts[inst.toNat]? = some x →
    incl = (if fl.inclDef then true else fl.incl) →
    maxb = (if fl.maxDef then 65535 else mb) → idle = (if fl.idleDef then 3000 else idl) →
      (1 ≤ bd.length → bd.length ≤ s.params.boundaryMax → 1 ≤ maxb.toNat → maxb.toNat ≤ s.params.maxBufferLimit →
        1 ≤ idle.toNat → idle.toNat ≤ s.params.idleLimit →
        exec (.asmConfigure inst fl bd mb idl) s =
          .next (Claims.updated s inst ⟨.running, some ⟨bd, incl, maxb, idle⟩, [], false, 0, x.out⟩ .ok .none)) ∧
      (∀ e : ConfigError,
        ((bd = [] ∧ e = .emptyBoundary) ∨
          (bd ≠ [] ∧ s.params.boundaryMax < bd.length ∧ e = .boundaryTooLong) ∨
          (bd ≠ [] ∧ bd.length ≤ s.params.boundaryMax ∧ (maxb = 0 ∨ s.params.maxBufferLimit < maxb.toNat) ∧
            e = .badMaxBuf) ∨
          (bd ≠ [] ∧ bd.length ≤ s.params.boundaryMax ∧ maxb ≠ 0 ∧ maxb.toNat ≤ s.params.maxBufferLimit ∧
            (idle = 0 ∨ s.params.idleLimit < idle.toNat) ∧ e = .badIdle)) →
        exec (.asmConfigure inst fl bd mb idl) s =
          .next (Claims.updated s inst ⟨.unconfigured, none, [], false, 0, x.out⟩ .configError (.configError e)))

/-- R68, R79: a push whose combined buffer reaches the cap emits exactly the first `CFG_MAXBUF` bytes, whether or not
the boundary lies among them; the rest is lost, and the timer is armed afresh. -/
def Obligations.PushAtCapCutsThere : Prop :=
  ∀ (s : State) (inst : Byte) (chunk : Bytes) (x : Instance) (c : AsmConfig), Claims.Runs s inst x c →
    1 ≤ c.maxBuf.toNat → c.maxBuf.toNat ≤ (x.buf ++ chunk).length →
      ((x.buf ++ chunk).take c.maxBuf.toNat).length = c.maxBuf.toNat ∧
      exec (.asmPush inst chunk) s =
        .next (Claims.updated s inst
          ⟨.running, some c, [], true, 0, x.out ++ [(x.buf ++ chunk).take c.maxBuf.toNat]⟩ .ok .none)

/-- R67, R69: below the cap, a push whose combined buffer holds the boundary emits the bytes up to its first occurrence,
with the boundary when `CFG_INCLUDE` is 1, and emits nothing when that is empty; what follows the match is lost, and
the timer is armed afresh. -/
def Obligations.PushAtBoundaryCutsThere : Prop :=
  ∀ (s : State) (inst : Byte) (chunk : Bytes) (x : Instance) (c : AsmConfig) (p : Nat), Claims.Runs s inst x c →
    (x.buf ++ chunk).length < c.maxBuf.toNat → Claims.FirstAt (x.buf ++ chunk) c.boundary p →
      exec (.asmPush inst chunk) s =
        .next (Claims.updated s inst
          ⟨.running, some c, [], true, 0, Claims.emitted x.out (Claims.boundaryFrame c (x.buf ++ chunk) p)⟩ .ok .none)

/-- R67, R70: below the cap and without the boundary, a push accumulates, emits nothing and restarts the interval, the
empty chunk included. -/
def Obligations.PushAccumulates : Prop :=
  ∀ (s : State) (inst : Byte) (chunk : Bytes) (x : Instance) (c : AsmConfig), Claims.Runs s inst x c →
    (x.buf ++ chunk).length < c.maxBuf.toNat → (∀ p, ¬ Claims.OccursAt (x.buf ++ chunk) c.boundary p) →
      exec (.asmPush inst chunk) s =
        .next (Claims.updated s inst ⟨.running, some c, x.buf ++ chunk, true, 0, x.out⟩ .ok .none)

/-- R126: outside the lifecycle states that admit it, an operation is answered STATE_ERROR and changes no state; a push
refused so does not cancel the timer. -/
def Obligations.WrongLifeRefused : Prop :=
  ∀ (s : State) (inst : Byte) (chunk : Bytes) (ms : U32) (x : Instance), s.insts[inst.toNat]? = some x →
    (x.life ≠ .running →
      exec (.asmPush inst chunk) s = .next (Claims.answered s .stateError .none) ∧
      exec (.asmTick inst ms) s = .next (Claims.answered s .stateError .none) ∧
      exec (.asmEnd inst) s = .next (Claims.answered s .stateError .none)) ∧
    (x.life = .unconfigured ∨ x.life = .destroyed →
      exec (.asmDestroy inst) s = .next (Claims.answered s .stateError .none))

/-- R71: a tick advances the idle counter of a running instance with its timer armed, saturating at `CFG_IDLE`, and
nothing else; with the timer disarmed it changes nothing; outside `Running` it is answered STATE_ERROR. It never
emits. -/
def Obligations.TickCountsWhileArmed : Prop :=
  ∀ (s : State) (inst : Byte) (ms : U32) (x : Instance), s.insts[inst.toNat]? = some x →
    (∀ c, x.life = .running → x.cfg = some c → x.timerArmed = true →
      ∃ e : U32, e.toNat = min (x.idleElapsed.toNat + ms.toNat) c.idle.toNat ∧
        exec (.asmTick inst ms) s = .next (Claims.updated s inst { x with idleElapsed := e } .ok .none)) ∧
    (x.life = .running → x.timerArmed = false → exec (.asmTick inst ms) s = .next (Claims.answered s .ok .none)) ∧
    (x.life ≠ .running → exec (.asmTick inst ms) s = .next (Claims.answered s .stateError .none))

/-- R72: the enabled timer event emits the buffer if it is not empty, empties it, disarms the timer, and has no
response; it happens under no other condition. -/
def Obligations.IdleFireFlushes : Prop :=
  (∀ (s : State) (inst : Byte) (x : Instance) (c : AsmConfig), Claims.Runs s inst x c →
    x.timerArmed = true → c.idle.toNat ≤ x.idleElapsed.toNat →
      exec (.asmIdleFire inst) s =
        .next (Claims.replaced s inst
          { x with buf := [], timerArmed := false, out := Claims.emitted x.out x.buf })) ∧
  (∀ (s t : State) (inst : Byte), exec (.asmIdleFire inst) s = .next t →
    ∃ x c, Claims.Runs s inst x c ∧ x.timerArmed = true ∧ c.idle.toNat ≤ x.idleElapsed.toNat)

/-- R73: the end of the stream emits the residual buffer if there is one, cancels the timer and closes the instance,
which then refuses pushes, ticks and ends and can be destroyed; outside `Running` it is answered STATE_ERROR. -/
def Obligations.EndFlushesAndCloses : Prop :=
  ∀ (s : State) (inst : Byte) (x : Instance), s.insts[inst.toNat]? = some x →
    (x.life = .running →
      ∃ y t, y = { x with life := .closed, buf := [], timerArmed := false, out := Claims.emitted x.out x.buf } ∧
        t = Claims.updated s inst y .ok .none ∧ exec (.asmEnd inst) s = .next t ∧
        (∀ chunk ms, ∀ i ∈ [Instr.asmPush inst chunk, .asmTick inst ms, .asmEnd inst],
          exec i t = .next (Claims.answered t .stateError .none)) ∧
        exec (.asmDestroy inst) t = .next (Claims.updated t inst { y with life := .destroyed } .ok .none)) ∧
    (x.life ≠ .running → exec (.asmEnd inst) s = .next (Claims.answered s .stateError .none))

/-- R74: destroying a running or closed instance discards the residual buffer without an emission and releases the
timer; otherwise it is answered STATE_ERROR. No instruction but `ASM_CONFIGURE` leaves `Destroyed`. -/
def Obligations.DestroyDiscards : Prop :=
  (∀ (s : State) (inst : Byte) (x : Instance), s.insts[inst.toNat]? = some x →
    (x.life = .running ∨ x.life = .closed →
      exec (.asmDestroy inst) s =
        .next (Claims.updated s inst { x with life := .destroyed, buf := [], timerArmed := false } .ok .none)) ∧
    (x.life = .unconfigured ∨ x.life = .destroyed →
      exec (.asmDestroy inst) s = .next (Claims.answered s .stateError .none))) ∧
  (∀ (s t : State) (i : Instr), exec i s = .next t → (∀ inst fl bd mb idl, i ≠ .asmConfigure inst fl bd mb idl) →
    ∀ (k : Nat) (x y : Instance), s.insts[k]? = some x → t.insts[k]? = some y → x.life = .destroyed →
      y.life = .destroyed)

/-- R75: let a running instance with an empty buffer receive `m` chunks (`before` and then `last`) and no timer event,
let the boundary be found first in the bytes of all `m`, at `p`, and let those bytes stay below the cap. Then the
pushes emit exactly the one frame that the bytes up to `p` give, however they were split (none when it is empty), and
the buffer is empty afterwards. -/
def Obligations.FragmentationInvariance : Prop :=
  ∀ (s : State) (inst : Byte) (x : Instance) (c : AsmConfig) (before : List Bytes) (last : Bytes) (p : Nat),
    Claims.Runs s inst x c → 1 ≤ c.boundary.length → x.buf = [] →
    (∀ j, j ≤ before.length → ∀ q, ¬ Claims.OccursAt (before.take j).flatten c.boundary q) →
    Claims.FirstAt (before.flatten ++ last) c.boundary p → (before.flatten ++ last).length < c.maxBuf.toNat →
      ∃ t y, Claims.execAll ((before ++ [last]).map (Instr.asmPush inst)) s = some t ∧
        t.insts[inst.toNat]? = some y ∧
        y.out = Claims.emitted x.out (Claims.boundaryFrame c (before.flatten ++ last) p) ∧ y.buf = []

/-- R78: let a push have left a non-empty buffer, and let ticks of at least `CFG_IDLE` milliseconds in all follow. Then
the timer event happens and emits that buffer, and after it ticks change nothing and no timer event is enabled: the
instance emits nothing more until its next input. That a timer event placed there is the fault `timerNotEnabled` is the
model's choice of log 3. -/
def Obligations.IdleFlushAfterInterval : Prop :=
  ∀ (s : State) (inst : Byte) (x : Instance) (c : AsmConfig) (ticks later : List U32),
    Claims.Runs s inst x c → x.timerArmed = true → x.idleElapsed = 0 → x.buf ≠ [] →
    c.idle.toNat ≤ (ticks.map BitVec.toNat).sum →
      ∃ t u v y, Claims.execAll (ticks.map (Instr.asmTick inst)) s = some t ∧
        exec (.asmIdleFire inst) t = .next u ∧
        u.insts[inst.toNat]? = some y ∧ y.out = x.out ++ [x.buf] ∧ y.buf = [] ∧
        Claims.execAll (later.map (Instr.asmTick inst)) u = some v ∧ v.insts = u.insts ∧
        exec (.asmIdleFire inst) v = .fault .timerNotEnabled

/-- R133, R148, for every push, whether it cuts at the cap, cuts at the boundary or accumulates: taken before an enabled
timer event it acts on the buffer and its bytes, arms the timer afresh and so cancels the event, which is then not
enabled; taken after it, the event has flushed the buffer and the push acts on its own bytes alone. Both orders run.
That a timer event placed where it is not enabled is the fault `timerNotEnabled` is the model's choice of log 3. -/
def Obligations.TimerAndPushEitherOrder : Prop :=
  ∀ (s : State) (inst : Byte) (chunk : Bytes) (x : Instance) (c : AsmConfig), Claims.Runs s inst x c →
    1 ≤ c.maxBuf.toNat → 1 ≤ c.idle.toNat → x.timerArmed = true → c.idle.toNat ≤ x.idleElapsed.toNat →
      (∃ t y, exec (.asmPush inst chunk) s = .next t ∧ t.insts[inst.toNat]? = some y ∧
        Claims.AfterPush c x.buf chunk x.out y ∧ exec (.asmIdleFire inst) t = .fault .timerNotEnabled) ∧
      (∃ t y, Claims.execAll [.asmIdleFire inst, .asmPush inst chunk] s = some t ∧ t.insts[inst.toNat]? = some y ∧
        Claims.AfterPush c [] chunk (Claims.emitted x.out x.buf) y)

/-! ## The Codec's units -/

/-- R82: with at most 12 decimal digits, `U_SERIAL_PACK` answers six bytes, byte `k` holding the digit of weight
`10^(2k+1)` in its high nibble and that of weight `10^(2k)` in its low nibble; more than 12 digits are an overflow,
checked first; else a digit above 9 is an invalid digit. Nothing is changed. -/
def Obligations.SerialPackPacksDigits : Prop :=
  ∀ (s : State) (digits : Bytes),
    (Claims.ValidDigits digits →
      ∃ ser : Bytes, exec (.uSerialPack digits) s = .next (Claims.answered s .ok (.bytes ser)) ∧ ser.length = 6 ∧
        ∀ k, k < 6 → (byteAt ser k).toNat =
          16 * Claims.digitOfWeight digits (2 * k + 1) + Claims.digitOfWeight digits (2 * k)) ∧
    (12 < digits.length →
      exec (.uSerialPack digits) s = .next (Claims.answered s (.encError .serialOverflow) (.bytes []))) ∧
    (digits.length ≤ 12 → (∃ d ∈ digits, 9 < d.toNat) →
      exec (.uSerialPack digits) s = .next (Claims.answered s (.encError .invalidDigit) (.bytes [])))

/-- R83: `U_SERIAL_UNPACK` answers the bytes from the last to the first in hexadecimal, leading zero bytes left out, and
changes nothing. -/
def Obligations.SerialUnpackRenders : Prop :=
  ∀ (s : State) (ser : Serial),
    exec (.uSerialUnpack ser) s =
      .next (Claims.answered s .ok
        (.str (((([ser.s5, ser.s4, ser.s3, ser.s2, ser.s1, ser.s0] : Bytes).dropWhile (· == 0)).map hex2).flatten)))

/-- R83: unpacking a packed serial number gives its digits back exactly when their number is even and they do not begin
with two zeros. -/
def Obligations.SerialRoundTripExactlyWhenEven : Prop :=
  ∀ (digits : Bytes) (ser : Serial), serialPack digits = .ok ser →
    (serialUnpack ser = Claims.digitChars digits ↔ digits.length % 2 = 0 ∧ ¬ ([0, 0] : Bytes) <+: digits)

/-- R96: packing the digits of an unpacked field gives the field back, for every field of BCD bytes. -/
def Obligations.SerialFieldRoundTrip : Prop :=
  ∀ ser : Serial, (∀ b ∈ ser.toList, Claims.IsBcd b) →
    ∃ digits, serialUnpack ser = Claims.digitChars digits ∧ serialPack digits = .ok ser

/-- R84, R85: the bias is added and removed modulo 256, and nothing is changed. -/
def Obligations.BiasUnitsWrap : Prop :=
  ∀ (s : State) (b : Byte),
    (∃ r : Byte, exec (.uBiasAdd b) s = .next (Claims.answered s .ok (.byte r)) ∧ r.toNat = (b.toNat + 0x33) % 256) ∧
    (∃ r : Byte, exec (.uBiasSub b) s = .next (Claims.answered s .ok (.byte r)) ∧ r.toNat = (b.toNat + 0xCD) % 256)

/-- R94: removing the bias undoes adding it and the other way round, and the checksum of a concatenation is the sum of
the checksums modulo 256. -/
def Obligations.ByteArithmeticLaws : Prop :=
  (∀ b : Byte, biasSub (biasAdd b) = b ∧ biasAdd (biasSub b) = b) ∧
  ∀ s t : Bytes, (checksum (s ++ t)).toNat = ((checksum s).toNat + (checksum t).toNat) % 256

/-- R86: `U_CHECKSUM_GEN` answers the sum of the bytes modulo 256 and changes nothing. -/
def Obligations.ChecksumGenSums : Prop :=
  ∀ (s : State) (data : Bytes), ∃ cs : Byte,
    exec (.uChecksumGen data) s = .next (Claims.answered s .ok (.byte cs)) ∧ cs.toNat = Claims.byteSum data % 256

/-- R87: `U_CHECKSUM_VERIFY` answers 1 exactly when the sum of the bytes modulo 256 is the byte given; changing any one
byte of the data to another value turns a 1 into a 0. Nothing is changed. -/
def Obligations.ChecksumVerifyDetectsOneByte : Prop :=
  ∀ (s : State) (data : Bytes) (cs : Byte),
    (∃ r : Bool, exec (.uChecksumVerify data cs) s = .next (Claims.answered s .ok (.bit r)) ∧
      (r = true ↔ Claims.byteSum data % 256 = cs.toNat)) ∧
    (Claims.byteSum data % 256 = cs.toNat → ∀ (i : Nat) (v : Byte), i < data.length → byteAt data i ≠ v →
      exec (.uChecksumVerify (data.set i v) cs) s = .next (Claims.answered s .ok (.bit false)))

/-- R88: in a legal table, `U_PROP_BY_NAME` answers the code of the entry with that name, and unknown property where
there is none, "" and "errCode" among them. Nothing is changed. -/
def Obligations.PropByNameLooksUp : Prop :=
  ∀ (s : State) (name : Str), TableLegal s.prop →
    (∀ e ∈ s.prop, e.name = name →
      exec (.uPropByName name) s =
        .next (Claims.answered s .ok (.bytes [e.code.b0, e.code.b1, e.code.b2, e.code.b3]))) ∧
    ((∀ e ∈ s.prop, e.name ≠ name) ∨ name = [] ∨ name = [0x65, 0x72, 0x72, 0x43, 0x6F, 0x64, 0x65] →
      exec (.uPropByName name) s = .next (Claims.answered s (.encError .unknownProperty) .none))

/-- R89: in a legal table, `U_PROP_BY_CODE` answers the name and the scale of the entry with that code, and nothing found
where there is none. Nothing is changed. -/
def Obligations.PropByCodeLooksUp : Prop :=
  ∀ (s : State) (code : Code), TableLegal s.prop →
    (∀ e ∈ s.prop, e.code = code →
      exec (.uPropByCode code) s = .next (Claims.answered s .ok (.lookup (some (e.name, Claims.scale e))))) ∧
    ((∀ e ∈ s.prop, e.code ≠ code) →
      exec (.uPropByCode code) s = .next (Claims.answered s .ok (.lookup none)))

/-- R90: `U_PAIR_VALUE` answers 10 times the high nibble plus the low one when both are decimal digits, and the OPEN
weight `NONBCD_PAIR` otherwise, whatever it is (log 7). Nothing is changed. -/
def Obligations.PairValueWeights : Prop :=
  ∀ (s : State) (b : Byte),
    (Claims.IsBcd b →
      exec (.uPairValue b) s = .next (Claims.answered s .ok (.nat (10 * (b.toNat / 16) + b.toNat % 16)))) ∧
    (¬ Claims.IsBcd b → exec (.uPairValue b) s = .next (Claims.answered s .ok (.nat (Config.nonBcdPair b))))

/-- R91: `U_BCD_VALUE` answers the exact sum of `PAIR(v[i]) × 100^i`; for all-BCD bytes it is below `100^len`. Nothing is
changed. -/
def Obligations.BcdValueSums : Prop :=
  ∀ (s : State) (v : Bytes),
    exec (.uBcdValue v) s =
      .next (Claims.answered s .ok (.nat (∑ i ∈ Finset.range v.length, pairValue (byteAt v i) * 100 ^ i))) ∧
    ((∀ b ∈ v, Claims.IsBcd b) → bcdValue v < 100 ^ v.length)

/-- R95: `BCD_VALUE` is injective on all-BCD sequences of one length, and trailing zero pairs add nothing. -/
def Obligations.BcdValueInjective : Prop :=
  (∀ v w : Bytes, (∀ b ∈ v, Claims.IsBcd b) → (∀ b ∈ w, Claims.IsBcd b) → v.length = w.length →
    bcdValue v = bcdValue w → v = w) ∧
  ∀ (v : Bytes) (n : Nat), bcdValue (v ++ List.replicate n 0) = bcdValue v

/-- R92, R61: in a legal table, `U_SCALE` answers the exact product of the little-endian raw integer and the scale of the
entry with that name, and unknown property where there is none. Nothing is changed. -/
def Obligations.ScaleIsExact : Prop :=
  ∀ (s : State) (raw : Bytes) (name : Str), TableLegal s.prop →
    (∀ e ∈ s.prop, e.name = name →
      exec (.uScale raw name) s =
        .next (Claims.answered s .ok
          (.rat (((∑ i ∈ Finset.range raw.length, (byteAt raw i).toNat * 256 ^ i : Nat) : Rat) * Claims.scale e)))) ∧
    ((∀ e ∈ s.prop, e.name ≠ name) →
      exec (.uScale raw name) s = .next (Claims.answered s (.encError .unknownProperty) .none))

/-- R10, R93: `U_HEX2` answers the two lower-case hexadecimal digits of the byte, the high nibble's first. Nothing is
changed. -/
def Obligations.Hex2RendersByte : Prop :=
  ∀ (s : State) (b : Byte), ∀ digits : Str,
    digits = Str.ofChars ['0', '1', '2', '3', '4', '5', '6', '7', '8', '9', 'a', 'b', 'c', 'd', 'e', 'f'] →
      exec (.uHex2 b) s =
        .next (Claims.answered s .ok (.str [byteAt digits (b.toNat / 16), byteAt digits (b.toNat % 16)]))

/-! ## Encoding a request frame -/

/-- R51, R100, R102, R103: with valid digits and a name of the table, `CODEC_ENCODE` answers the 20 bytes of the layout,
whatever the command byte, and changes nothing. -/
def Obligations.EncodeBuildsRequestFrame : Prop :=
  ∀ (s : State) (digits : Bytes) (cmd : Byte) (e : PropEntry), TableLegal s.prop → e ∈ s.prop →
    Claims.ValidDigits digits →
      ∃ f : Bytes, exec (.codecEncode digits cmd e.name) s = .next (Claims.answered s .ok (.bytes f)) ∧
        f.length = 20 ∧ f.take 4 = [0xFE, 0xFE, 0xFE, 0xFE] ∧ byteAt f 4 = 0x68 ∧
        (∀ k, k < 6 → (byteAt f (5 + k)).toNat =
          16 * Claims.digitOfWeight digits (2 * k + 1) + Claims.digitOfWeight digits (2 * k)) ∧
        byteAt f 11 = 0x68 ∧ byteAt f 12 = cmd ∧ byteAt f 13 = 0x04 ∧
        slice f 14 18 = [e.code.b3 + 0x33, e.code.b2 + 0x33, e.code.b1 + 0x33, e.code.b0 + 0x33] ∧
        (byteAt f 18).toNat = Claims.byteSum (slice f 4 18) % 256 ∧ byteAt f 19 = 0x16

/-- R100, R128, R130, R131: a failed encode answers its error with the empty byte sequence and appends one `DIAG` record
of that error: overflow first, then an invalid digit, then an unknown property. -/
def Obligations.EncodeFailuresInOrder : Prop :=
  ∀ (s : State) (digits : Bytes) (cmd : Byte) (name : Str) (e : EncError),
    ((12 < digits.length ∧ e = .serialOverflow) ∨
      (digits.length ≤ 12 ∧ (∃ d ∈ digits, 9 < d.toNat) ∧ e = .invalidDigit) ∨
      (Claims.ValidDigits digits ∧ (∀ x ∈ s.prop, x.name ≠ name) ∧ e = .unknownProperty)) →
      exec (.codecEncode digits cmd name) s =
        .next { s with diag := s.diag ++ [⟨e⟩], responses := s.responses ++ [⟨.encError e, .bytes []⟩] }

/-! ## Decoding a frame -/

/-- R105, R120, R129: `CODEC_DECODE` answers OK with a record for every byte sequence and changes nothing; the record's
fields go with its kind as the table of R129 says, with the value it gives: the scaled value of a located response for
kind `ok`, the text of the byte three before the terminator for an error response. -/
def Obligations.DecodeAlwaysAnswersRecord : Prop :=
  ∀ (s : State) (f : Bytes), ∃ r : DecodeResult,
    exec (.codecDecode f) s = .next (Claims.answered s .ok (.decoded r)) ∧
    match r.kind with
    | .ok =>
      r.sub = none ∧ r.status = true ∧ ∃ start div stop len e, Claims.Dispatched f start div stop ∧ e ∈ s.prop ∧
        Claims.ResponseOf f div stop len e ∧ r.propertyName = e.name ∧ r.value = .num (Claims.readValue f div len e)
    | .checksumMismatch => r = Claims.mismatch
    | .structural => ∃ sub, r = Claims.structural sub
    | .unknownCommand =>
      r.sub = none ∧ r.status = false ∧ r.propertyName = Str.errCode ∧ r.value = .text (Str.ofChars ['-', '1'])
    | .unknownProperty => r.sub = none ∧ r.status = false ∧ r.propertyName = [] ∧ r.value = .num 0
    | .errorResponse =>
      r.sub = none ∧ r.status = false ∧ r.propertyName = Str.errCode ∧
        ∃ start div stop, Claims.Dispatched f start div stop ∧ r.value = .text (hex2 (byteAt f (stop - 3)))

/-- R106, R107, R130: no divider, one divider, no terminator, a terminator before or right after the first divider, in
this order, each with its structural result. -/
def Obligations.DecodeLocates : Prop :=
  ∀ (s : State) (f : Bytes) (sub : Structural),
    ((0x68 ∉ f ∧ sub = .noDivider) ∨
      (List.count 0x68 f = 1 ∧ sub = .oneDivider) ∨
      (2 ≤ List.count 0x68 f ∧ 0x16 ∉ f ∧ sub = .noTerminator) ∨
      ((∃ start div stop, Claims.Positions f start div stop ∧ stop ≤ start + 1) ∧ sub = .order)) →
      exec (.codecDecode f) s = .next (Claims.answered s .ok (.decoded (Claims.structural sub)))

/-- R109: a located frame whose sum over `[start, end−1)` modulo 256 is not the byte at `end−1` gives "csCheck Error",
whatever its fields hold. -/
def Obligations.DecodeDetectsMismatch : Prop :=
  ∀ (s : State) (f : Bytes) (start div stop : Nat), Claims.Positions f start div stop → start + 1 < stop →
    ¬ Claims.SumOk f start stop →
      exec (.codecDecode f) s = .next (Claims.answered s .ok (.decoded Claims.mismatch))

/-- R110, R113: with the right checksum, dividers that do not enclose six bytes, a missing command byte, a missing length
byte, a length below 4 and a length that does not end at the checksum each give their structural result. -/
def Obligations.DecodeChecksFields : Prop :=
  ∀ (s : State) (f : Bytes) (start div stop : Nat) (sub : Structural), Claims.Positions f start div stop →
    start + 1 < stop → Claims.SumOk f start stop →
    ((div ≠ start + 7 ∧ sub = .serialField) ∨
      (div = start + 7 ∧ stop ≤ div + 2 ∧ sub = .short) ∨
      (div = start + 7 ∧ div + 2 < stop ∧ (byteAt f (div + 1) = 0x91 ∨ byteAt f (div + 1) = 0xB1) ∧
        ((stop ≤ div + 3 ∧ sub = .short) ∨
          (div + 3 < stop ∧ ((byteAt f (div + 2)).toNat < 4 ∨ div + 3 + (byteAt f (div + 2)).toNat ≠ stop - 1) ∧
            sub = .length)))) →
      exec (.codecDecode f) s = .next (Claims.answered s .ok (.decoded (Claims.structural sub)))

/-- R113 to R115: a response with command code 91 or B1 whose unbiased, reversed code is an entry's and whose length byte
ends at the checksum gives that entry's name and the exact scaled sum of its unbiased value pairs, as `CODEC_DECODE`
and as the wire row of its own command code. -/
def Obligations.DecodeReadResponse : Prop :=
  ∀ (s : State) (f : Bytes) (start div stop len : Nat) (e : PropEntry), TableLegal s.prop → e ∈ s.prop →
    Claims.Dispatched f start div stop → byteAt f (div + 1) = 0x91 ∨ byteAt f (div + 1) = 0xB1 →
    Claims.ResponseOf f div stop len e →
      ∃ r, r = Claims.record .ok f start div true e.name (.num (Claims.readValue f div len e)) ∧
        exec (.codecDecode f) s = .next (Claims.answered s .ok (.decoded r)) ∧
        (byteAt f (div + 1) = 0x91 → exec (.wireReadResponse f) s = .next (Claims.answered s .ok (.decoded r))) ∧
        (byteAt f (div + 1) = 0xB1 → exec (.wireReadResponseMore f) s = .next (Claims.answered s .ok (.decoded r)))

/-- R116: the same response with a code no entry has gives `status` false, an empty name and the number 0. -/
def Obligations.DecodeUnknownProperty : Prop :=
  ∀ (s : State) (f : Bytes) (start div stop len : Nat),
    Claims.Dispatched f start div stop → byteAt f (div + 1) = 0x91 ∨ byteAt f (div + 1) = 0xB1 →
    (byteAt f (div + 2)).toNat = len → 4 ≤ len → div + 3 + len = stop - 1 →
    (∀ e ∈ s.prop,
      slice f (div + 3) (div + 7) ≠ [e.code.b3 + 0x33, e.code.b2 + 0x33, e.code.b1 + 0x33, e.code.b0 + 0x33]) →
      exec (.codecDecode f) s =
        .next (Claims.answered s .ok (.decoded (Claims.record .unknownProperty f start div false [] (.num 0))))

/-- R117: command code D1 gives "errCode" and the hexadecimal text of the byte three positions before the terminator,
which lies inside the frame, no bias removed, as `CODEC_DECODE` and as its wire row. -/
def Obligations.DecodeErrorResponse : Prop :=
  ∀ (s : State) (f : Bytes) (start div stop : Nat), Claims.Dispatched f start div stop →
    byteAt f (div + 1) = 0xD1 →
      div ≤ stop - 3 ∧
      ∃ r, r = Claims.record .errorResponse f start div false Str.errCode (.text (hex2 (byteAt f (stop - 3)))) ∧
        exec (.codecDecode f) s = .next (Claims.answered s .ok (.decoded r)) ∧
        exec (.wireErrorResponse f) s = .next (Claims.answered s .ok (.decoded r))

/-- R118: every other command code, the read request 11 among them, gives "errCode" and the string "-1", as
`CODEC_DECODE` and as the wire row of its own command code. -/
def Obligations.DecodeUnknownCommand : Prop :=
  ∀ (s : State) (f : Bytes) (start div stop : Nat), Claims.Dispatched f start div stop →
    byteAt f (div + 1) ≠ 0x91 → byteAt f (div + 1) ≠ 0xB1 → byteAt f (div + 1) ≠ 0xD1 →
      ∃ r, r = Claims.record .unknownCommand f start div false Str.errCode (.text (Str.ofChars ['-', '1'])) ∧
        exec (.codecDecode f) s = .next (Claims.answered s .ok (.decoded r)) ∧
        (byteAt f (div + 1) = 0x11 → exec (.wireReadRequest f) s = .next (Claims.answered s .ok (.decoded r))) ∧
        (byteAt f (div + 1) ≠ 0x11 → exec (.wireOtherCommand f) s = .next (Claims.answered s .ok (.decoded r)))

/-- R54, R112: a `CODEC_DECODE` and the wire row its frame's command byte names run the same: the refinement of the
decoder, the model's choice of log 15, changes no effect, on any state and any instruction. -/
def Obligations.WireRowsRunAsDecode : Prop := ∀ (i : Instr) (s : State), exec (refine i) s = exec i s

/-- The model's choice of log 20: a wire row runs its own arm on every frame that reaches the command dispatch, whatever
the frame's command byte, which the record shows as it is: the rows of 11 and of the other commands that of R118, the
row of D1 that of R117, the rows of 91 and B1 that of R113 to R116 with each of its outcomes (no length byte, a wrong
length, an entry's code, a code no entry has). And an input decodes to a row only where its frame reaches the dispatch
with a command code of that row (R54, R112; the refinement is log 15's). -/
def Obligations.WireRowsOffTheirCommand : Prop :=
  (∀ (s : State) (f : Bytes) (start div stop : Nat), Claims.Dispatched f start div stop →
    (∀ i ∈ [Instr.wireReadRequest f, .wireOtherCommand f],
      exec i s = .next (Claims.answered s .ok (.decoded
        (Claims.record .unknownCommand f start div false Str.errCode (.text (Str.ofChars ['-', '1'])))))) ∧
    exec (.wireErrorResponse f) s = .next (Claims.answered s .ok (.decoded
      (Claims.record .errorResponse f start div false Str.errCode (.text (hex2 (byteAt f (stop - 3))))))) ∧
    (∀ i ∈ [Instr.wireReadResponse f, .wireReadResponseMore f], ∀ len, (byteAt f (div + 2)).toNat = len →
      (stop ≤ div + 3 → exec i s = .next (Claims.answered s .ok (.decoded (Claims.structural .short)))) ∧
      (div + 3 < stop → len < 4 ∨ div + 3 + len ≠ stop - 1 →
        exec i s = .next (Claims.answered s .ok (.decoded (Claims.structural .length)))) ∧
      (∀ e, TableLegal s.prop → e ∈ s.prop → Claims.ResponseOf f div stop len e →
        exec i s = .next (Claims.answered s .ok (.decoded
          (Claims.record .ok f start div true e.name (.num (Claims.readValue f div len e)))))) ∧
      (4 ≤ len → div + 3 + len = stop - 1 → (∀ e ∈ s.prop, ¬ Claims.ResponseOf f div stop len e) →
        exec i s = .next (Claims.answered s .ok (.decoded
          (Claims.record .unknownProperty f start div false [] (.num 0))))))) ∧
  (∀ (p : Params) (x : PortInput) (i : Instr), decodeInput p x = .ok i →
    ∀ f : Bytes, i ∈ [Instr.wireReadRequest f, .wireReadResponse f, .wireReadResponseMore f, .wireErrorResponse f,
        .wireOtherCommand f] →
      ∃ start div stop, Claims.Dispatched f start div stop ∧
        (i = .wireReadRequest f → byteAt f (div + 1) = 0x11) ∧
        (i = .wireReadResponse f → byteAt f (div + 1) = 0x91) ∧
        (i = .wireReadResponseMore f → byteAt f (div + 1) = 0xB1) ∧
        (i = .wireErrorResponse f → byteAt f (div + 1) = 0xD1) ∧
        (i = .wireOtherCommand f → byteAt f (div + 1) ∉ ([0x11, 0x91, 0xB1, 0xD1] : List Byte)))

/-- R122: an encoded frame without a further 0x68 or 0x16 in its serial, command, length, code and checksum bytes is
decoded: as a successful read with the encoded name and value 0 for 91 and B1, as an error response with byte 16 for
D1, as an unknown command otherwise; its serial number is the one of bytes 5 to 10, and it equals the encoded digits
exactly when their number is even and they do not begin with two zeros. -/
def Obligations.EncodedFramesDecode : Prop :=
  ∀ (s : State) (digits : Bytes) (cmd : Byte) (name : Str) (f : Bytes), TableLegal s.prop →
    exec (.codecEncode digits cmd name) s = .next (Claims.answered s .ok (.bytes f)) →
    (∀ b ∈ slice f 5 11 ++ slice f 12 19, b ≠ 0x68 ∧ b ≠ 0x16) →
      exec (.codecDecode f) s = .next (Claims.answered s .ok (.decoded
        (if cmd = 0x91 ∨ cmd = 0xB1 then Claims.record .ok f 4 11 true name (.num 0)
          else if cmd = 0xD1 then Claims.record .errorResponse f 4 11 false Str.errCode (.text (hex2 (byteAt f 16)))
          else Claims.record .unknownCommand f 4 11 false Str.errCode (.text (Str.ofChars ['-', '1']))))) ∧
      byteAt f 12 = cmd ∧
      (Claims.serialText f 4 = Claims.digitChars digits ↔ digits.length % 2 = 0 ∧ ¬ ([0, 0] : Bytes) <+: digits)

/-- R152: what changing one byte of a frame with the right checksum, exactly two dividers and one terminator, at its end,
does to its decode. In the preamble: nothing for a byte that is no delimiter, a structural result for a terminator; a
divider there becomes the first one, and the result is "csCheck Error" unless the longer range sums to the checksum
byte. A destroyed divider or terminator: its structural result. In the summed range or the checksum: "csCheck Error"
for every byte but a terminator, which becomes the first one: right after the first divider a structural result, beyond
it "csCheck Error" unless the shorter range sums to the byte before it. -/
def Obligations.SingleByteChanges : Prop :=
  ∀ (s : State) (f : Bytes) (start div : Nat) (i : Nat) (x : Byte),
    Claims.Positions f start div (f.length - 1) → List.count 0x68 f = 2 → Claims.SumOk f start (f.length - 1) →
    i < f.length → byteAt f i ≠ x →
      (i < start → x ≠ 0x68 → x ≠ 0x16 →
        exec (.codecDecode (f.set i x)) s = exec (.codecDecode f) s) ∧
      (i < start → x = 0x16 →
        exec (.codecDecode (f.set i x)) s = .next (Claims.answered s .ok (.decoded (Claims.structural .order)))) ∧
      (i < start → x = 0x68 → Claims.Positions (f.set i x) i div (f.length - 1) ∧
        (¬ Claims.SumOk (f.set i x) i (f.length - 1) →
          exec (.codecDecode (f.set i x)) s = .next (Claims.answered s .ok (.decoded Claims.mismatch)))) ∧
      (i = start ∨ i = div →
        exec (.codecDecode (f.set i x)) s = .next (Claims.answered s .ok (.decoded (Claims.structural .oneDivider)))) ∧
      (start < i → i ≠ div → i < f.length - 1 → x ≠ 0x16 →
        exec (.codecDecode (f.set i x)) s = .next (Claims.answered s .ok (.decoded Claims.mismatch))) ∧
      (i = start + 1 → i ≠ div → x = 0x16 →
        exec (.codecDecode (f.set i x)) s = .next (Claims.answered s .ok (.decoded (Claims.structural .order)))) ∧
      (start + 1 < i → i ≠ div → i < f.length - 1 → x = 0x16 → Claims.Positions (f.set i x) start div i ∧
        (¬ Claims.SumOk (f.set i x) start i →
          exec (.codecDecode (f.set i x)) s = .next (Claims.answered s .ok (.decoded Claims.mismatch)))) ∧
      (i = f.length - 1 →
        exec (.codecDecode (f.set i x)) s = .next (Claims.answered s .ok (.decoded (Claims.structural .noTerminator))))
end

