-- ==== Sys2Proof/Laws/Bytes.lean ====
section
/-! SUPPORT. Spec lemmas of the byte-sequence primitives: indexing, slices, the three searches, the checksum, and the
little-endian sum. -/

namespace Sys2Proof.Machine

@[simp] theorem byteAt_cons_zero (b : Byte) (s : Bytes) : byteAt (b :: s) 0 = b := rfl
@[simp] theorem byteAt_cons_succ (b : Byte) (s : Bytes) (i : Nat) : byteAt (b :: s) (i + 1) = byteAt s i := by
  simp [byteAt]
@[simp] theorem byteAt_nil (i : Nat) : byteAt [] i = 0 := by simp [byteAt]

theorem byteAt_eq_getElem {s : Bytes} {i : Nat} (h : i < s.length) : byteAt s i = s[i] := by simp [byteAt, h]

theorem byteAt_append_left {s t : Bytes} {i : Nat} (h : i < s.length) : byteAt (s ++ t) i = byteAt s i := by
  rw [byteAt_eq_getElem h, byteAt_eq_getElem (by simp; omega), List.getElem_append_left h]

theorem byteAt_append_right {s t : Bytes} {i : Nat} (h : s.length ≤ i) :
    byteAt (s ++ t) i = byteAt t (i - s.length) := by
  simp [byteAt, List.getElem?_append_right h]

theorem byteAt_set {s : Bytes} {i k : Nat} {v : Byte} (h : i < s.length) :
    byteAt (s.set i v) k = if k = i then v else byteAt s k := by
  by_cases hk : k = i
  · subst hk; simp [byteAt, h]
  · simp [byteAt, hk, Ne.symm hk]

theorem slice_length {s : Bytes} {a b : Nat} (h : b ≤ s.length) : (slice s a b).length = b - a := by
  simp [slice]; omega

/-- `pat` occurs in `s` at 0 exactly when it is a beginning of `s`. -/
theorem slice_zero_eq_iff (s pat : Bytes) :
    (0 + pat.length ≤ s.length ∧ slice s 0 (0 + pat.length) = pat) ↔ pat.isPrefixOf s = true := by
  rw [List.isPrefixOf_iff_prefix, List.prefix_iff_eq_take]
  constructor
  · rintro ⟨-, h⟩; simpa [slice] using h.symm
  · intro h
    refine ⟨?_, (by simpa [slice] using h.symm)⟩
    have := congrArg List.length h
    simp at this; omega

theorem slice_succ_cons (b : Byte) (s : Bytes) (a n : Nat) : slice (b :: s) (a + 1) (n + 1) = slice s a n := by
  simp [slice]

/-- `find` answers the least index of an occurrence, and none when there is none (R9). -/
theorem find_spec (s pat : Bytes) :
    match find s pat with
    | some p => (p + pat.length ≤ s.length ∧ slice s p (p + pat.length) = pat) ∧
        ∀ k, k < p → ¬ (k + pat.length ≤ s.length ∧ slice s k (k + pat.length) = pat)
    | none => ∀ k, ¬ (k + pat.length ≤ s.length ∧ slice s k (k + pat.length) = pat) := by
  induction s with
  | nil =>
    by_cases h : pat = []
    · simp [find, h, slice]
    · simp only [find, h, if_false, List.length_nil]
      rintro k ⟨hk, -⟩
      exact h (List.length_eq_zero_iff.1 (by omega))
  | cons b rest ih =>
    have shift (k : Nat) : (k + 1 + pat.length ≤ (b :: rest).length ∧
        slice (b :: rest) (k + 1) (k + 1 + pat.length) = pat) ↔
        (k + pat.length ≤ rest.length ∧ slice rest k (k + pat.length) = pat) := by
      rw [show k + 1 + pat.length = k + pat.length + 1 by omega, slice_succ_cons]; simp
    unfold find
    by_cases h : pat.isPrefixOf (b :: rest) = true
    · simp only [h, if_true]
      exact ⟨(slice_zero_eq_iff _ _).2 h, by simp⟩
    · simp only [h]
      have h0 : ¬ (0 + pat.length ≤ (b :: rest).length ∧ slice (b :: rest) 0 (0 + pat.length) = pat) :=
        fun hc => h ((slice_zero_eq_iff _ _).1 hc)
      cases hf : find rest pat with
      | none =>
        simp only [hf] at ih
        intro k
        cases k with
        | zero => exact h0
        | succ k => rw [shift]; exact ih k
      | some p =>
        simp only [hf] at ih
        refine ⟨(shift p).2 ih.1, fun k hk => ?_⟩
        cases k with
        | zero => exact h0
        | succ k => rw [shift]; exact ih.2 k (Nat.lt_of_succ_lt_succ hk)

theorem find_eq_some_iff {s pat : Bytes} {p : Nat} :
    find s pat = some p ↔ (p + pat.length ≤ s.length ∧ slice s p (p + pat.length) = pat) ∧
      ∀ k, k < p → ¬ (k + pat.length ≤ s.length ∧ slice s k (k + pat.length) = pat) := by
  have h := find_spec s pat
  constructor
  · intro hf; simpa only [hf] using h
  · rintro ⟨hp, hlt⟩
    cases hf : find s pat with
    | none => rw [hf] at h; exact absurd hp (h p)
    | some q =>
      rw [hf] at h
      rcases Nat.lt_trichotomy p q with hpq | hpq | hpq
      · exact absurd hp (h.2 p hpq)
      · rw [hpq]
      · exact absurd h.1 (hlt q hpq)

theorem find_eq_none_iff {s pat : Bytes} :
    find s pat = none ↔ ∀ k, ¬ (k + pat.length ≤ s.length ∧ slice s k (k + pat.length) = pat) := by
  have h := find_spec s pat
  constructor
  · intro hf; simpa only [hf] using h
  · intro hn
    cases hf : find s pat with
    | none => rfl
    | some q => rw [hf] at h; exact absurd h.1 (hn q)

/-- `first` answers the least index of the byte (R9). -/
theorem first_spec (s : Bytes) (b : Byte) :
    match first s b with
    | some i => i < s.length ∧ byteAt s i = b ∧ ∀ k, k < i → byteAt s k ≠ b
    | none => b ∉ s := by
  induction s with
  | nil => simp [first]
  | cons x rest ih =>
    unfold first
    by_cases h : x = b
    · simp [h]
    · simp only [h, if_false]
      cases hf : first rest b with
      | none => simp only [hf] at ih; simp [ih, Ne.symm h]
      | some i =>
        simp only [hf] at ih
        refine ⟨by simp; exact ih.1, by simpa using ih.2.1, fun k hk => ?_⟩
        cases k with
        | zero => simpa using h
        | succ k => simpa using ih.2.2 k (Nat.lt_of_succ_lt_succ hk)

/-- `last` answers the greatest index of the byte (R9). -/
theorem last_spec (s : Bytes) (b : Byte) :
    match last s b with
    | some i => i < s.length ∧ byteAt s i = b ∧ ∀ k, i < k → k < s.length → byteAt s k ≠ b
    | none => b ∉ s := by
  induction s with
  | nil => simp [last]
  | cons x rest ih =>
    unfold last
    cases hl : last rest b with
    | some i =>
      simp only [hl] at ih
      refine ⟨by simp; exact ih.1, by simpa using ih.2.1, fun k hk hkl => ?_⟩
      cases k with
      | zero => omega
      | succ k => simpa using ih.2.2 k (by omega) (by simpa using hkl)
    | none =>
      simp only [hl] at ih
      by_cases h : x = b
      · simp only [h, if_true]
        refine ⟨by simp, by simp, fun k hk hkl => ?_⟩
        cases k with
        | zero => omega
        | succ k =>
          have hk' : k < rest.length := by simpa using hkl
          rw [byteAt_cons_succ, byteAt_eq_getElem hk']
          exact fun hc => ih (hc ▸ List.getElem_mem hk')
      · simp [h, ih, Ne.symm h]

theorem first_eq_some_iff {s : Bytes} {b : Byte} {i : Nat} :
    first s b = some i ↔ i < s.length ∧ byteAt s i = b ∧ ∀ k, k < i → byteAt s k ≠ b := by
  have h := first_spec s b
  constructor
  · intro hf; simpa [hf] using h
  · rintro ⟨hi, hb, hlt⟩
    cases hf : first s b with
    | none =>
      simp only [hf] at h
      exact absurd (hb ▸ byteAt_eq_getElem hi ▸ List.getElem_mem hi) h
    | some j =>
      simp only [hf] at h
      rcases Nat.lt_trichotomy i j with hij | hij | hij
      · exact absurd hb (h.2.2 i hij)
      · rw [hij]
      · exact absurd h.2.1 (hlt j hij)

theorem first_eq_none_iff {s : Bytes} {b : Byte} : first s b = none ↔ b ∉ s := by
  have h := first_spec s b
  constructor
  · intro hf; simpa [hf] using h
  · intro hb
    cases hf : first s b with
    | none => rfl
    | some i =>
      simp only [hf] at h
      exact absurd (h.2.1 ▸ byteAt_eq_getElem h.1 ▸ List.getElem_mem h.1) hb

theorem last_eq_some_iff {s : Bytes} {b : Byte} {i : Nat} :
    last s b = some i ↔ i < s.length ∧ byteAt s i = b ∧ ∀ k, i < k → k < s.length → byteAt s k ≠ b := by
  have h := last_spec s b
  constructor
  · intro hf; simpa [hf] using h
  · rintro ⟨hi, hb, hgt⟩
    cases hf : last s b with
    | none =>
      simp only [hf] at h
      exact absurd (hb ▸ byteAt_eq_getElem hi ▸ List.getElem_mem hi) h
    | some j =>
      simp only [hf] at h
      rcases Nat.lt_trichotomy i j with hij | hij | hij
      · exact absurd h.2.1 (hgt j hij h.1)
      · rw [hij]
      · exact absurd hb (h.2.2 i hij hi)

theorem last_eq_none_iff {s : Bytes} {b : Byte} : last s b = none ↔ b ∉ s := by
  have h := last_spec s b
  constructor
  · intro hf; simpa [hf] using h
  · intro hb
    cases hf : last s b with
    | none => rfl
    | some i =>
      simp only [hf] at h
      exact absurd (h.2.1 ▸ byteAt_eq_getElem h.1 ▸ List.getElem_mem h.1) hb

/-- Changing one byte changes the sum by the difference of the two bytes. -/
theorem sum_set {s : Bytes} {i : Nat} {v : Byte} (h : i < s.length) :
    ((s.set i v).map BitVec.toNat).sum + (byteAt s i).toNat = (s.map BitVec.toNat).sum + v.toNat := by
  induction s generalizing i with
  | nil => simp at h
  | cons b rest ih =>
    cases i with
    | zero => simp; omega
    | succ i =>
      have := ih (i := i) (by simpa using h)
      simp only [List.set_cons_succ, List.map_cons, List.sum_cons, byteAt_cons_succ]
      omega

/-- The checksum as a sum of numbers (R86). -/
theorem checksum_toNat (s : Bytes) : (checksum s).toNat = (s.map BitVec.toNat).sum % 256 := by
  induction s with
  | nil => rfl
  | cons b rest ih => simp [checksum, ih]

theorem checksumOk_iff (s : Bytes) (cs : Byte) :
    checksumOk s cs = true ↔ (s.map BitVec.toNat).sum % 256 = cs.toNat := by
  rw [checksumOk, beq_iff_eq, ← BitVec.toNat_inj, checksum_toNat]

theorem checksum_add (s t : Bytes) : checksum (s ++ t) = checksum s + checksum t := by
  induction s with
  | nil => simp [checksum]
  | cons b rest ih => simp [checksum, ih, BitVec.add_assoc]

theorem lessThan_iff (k n : Nat) : lessThan k n = true ↔ k < n := by
  induction k generalizing n with
  | zero => cases n <;> simp [lessThan]
  | succ k ih => cases n <;> simp [lessThan, ih]

end Sys2Proof.Machine
end

