-- ==== Sys2Proof/Laws/Decode.lean ====
section
/-! SUPPORT. What the decoder can answer: a request never decodes to the timer event (spec/30_encoding.md R56), and the
refinement of a decode is a wire row of the same frame. -/

namespace Sys2Proof

open Sys2Proof.Machine

/-- The wire row of a command byte is never the timer event. -/
theorem wireInstr_ne_event (c : Byte) (f : Bytes) (inst : Byte) : wireInstr c f ≠ .asmIdleFire inst := by
  unfold wireInstr
  intro h
  (repeat' split at h) <;> cases h

/-- Refining changes a decode only (R112). -/
theorem refine_cases (i : Instr) :
    refine i = i ∨ ∃ f c, i = .codecDecode f ∧ reachedCommand f = some c ∧ refine i = wireInstr c f := by
  cases i
  case codecDecode f =>
    simp only [refine]
    split
    · exact .inr ⟨f, _, rfl, ‹_›, rfl⟩
    · exact .inl rfl
  all_goals exact .inl rfl

/-- No host request is the timer event: code 04 is reserved (R56, R58). -/
theorem decodeRequest_ne_event (p : Params) (q : Bytes) (inst : Byte) :
    decodeRequest p q ≠ .ok (.asmIdleFire inst) := by
  intro h
  unfold decodeRequest at h
  split at h
  · cases h
  · split at h
    · cases h
    · split at h
      · cases h
      · simp only [decodeOperands] at h
        split at h <;> (repeat' split at h) <;> cases h

/-- A decoded request is an instruction the port's decoder reads, refined (R55, R112). -/
theorem decodeInput_request {p : Params} {q : Bytes} {i : Instr} (h : decodeInput p (.request q) = .ok i) :
    ∃ j, decodeRequest p q = .ok j ∧ i = refine j := by
  simp only [decodeInput] at h
  cases hd : decodeRequest p q with
  | error e => rw [hd] at h; cases h
  | ok j => rw [hd] at h; cases h; exact ⟨j, rfl, rfl⟩

theorem decodeInput_request_ne_event (p : Params) (q : Bytes) (inst : Byte) :
    decodeInput p (.request q) ≠ .ok (.asmIdleFire inst) := by
  intro h
  obtain ⟨j, hj, hr⟩ := decodeInput_request h
  rcases refine_cases j with h1 | ⟨f, c, _, _, h1⟩
  · rw [h1] at hr; exact decodeRequest_ne_event p q inst (hr ▸ hj)
  · exact wireInstr_ne_event c f inst (h1 ▸ hr.symm)

/-- The wire row of a command byte, by the byte (R54). -/
theorem wireInstr_eq_cases {c : Byte} {f : Bytes} {i : Instr} (h : wireInstr c f = i) :
    (i = .wireReadRequest f ∧ c = 0x11) ∨ (i = .wireReadResponse f ∧ c = 0x91) ∨
    (i = .wireReadResponseMore f ∧ c = 0xB1) ∨ (i = .wireErrorResponse f ∧ c = 0xD1) ∨
    (i = .wireOtherCommand f ∧ c ∉ ([0x11, 0x91, 0xB1, 0xD1] : List Byte)) := by
  subst h
  unfold wireInstr
  (repeat' split) <;> simp_all

/-- The port's decoder gives no wire row: only the refinement of a decode does (R54, R112). -/
theorem decodeRequest_not_wire {p : Params} {q : Bytes} {i : Instr} (h : decodeRequest p q = .ok i)
    (f : Bytes) : i ∉ [Instr.wireReadRequest f, .wireReadResponse f, .wireReadResponseMore f, .wireErrorResponse f,
      .wireOtherCommand f] := by
  unfold decodeRequest at h
  split at h
  · cases h
  · split at h
    · cases h; simp
    · split at h
      · cases h
      · simp only [decodeOperands] at h
        split at h <;> (repeat' split at h) <;> cases h <;> simp

end Sys2Proof
end

