-- ==== Sys2Proof/Laws/State.lean ====
section
/-! SUPPORT. One lemma per field per update of the state and of an instance, and what each update leaves alone. -/

namespace Sys2Proof.Machine

section StateUpdates
variable (s : State) (st : Status) (pl : Payload) (k : Nat) (x : Instance) (e : EncError) (rest : List PortInput)

@[simp] theorem State.answer_params : (s.answer st pl).params = s.params := rfl
@[simp] theorem State.answer_prop : (s.answer st pl).prop = s.prop := rfl
@[simp] theorem State.answer_insts : (s.answer st pl).insts = s.insts := rfl
@[simp] theorem State.answer_diag : (s.answer st pl).diag = s.diag := rfl
@[simp] theorem State.answer_inputs : (s.answer st pl).inputs = s.inputs := rfl
@[simp] theorem State.answer_responses : (s.answer st pl).responses = s.responses ++ [⟨st, pl⟩] := rfl

@[simp] theorem State.setInst_params : (s.setInst k x).params = s.params := rfl
@[simp] theorem State.setInst_prop : (s.setInst k x).prop = s.prop := rfl
@[simp] theorem State.setInst_insts : (s.setInst k x).insts = s.insts.set k x := rfl
@[simp] theorem State.setInst_diag : (s.setInst k x).diag = s.diag := rfl
@[simp] theorem State.setInst_inputs : (s.setInst k x).inputs = s.inputs := rfl
@[simp] theorem State.setInst_responses : (s.setInst k x).responses = s.responses := rfl

@[simp] theorem State.addDiag_params : (s.addDiag e).params = s.params := rfl
@[simp] theorem State.addDiag_prop : (s.addDiag e).prop = s.prop := rfl
@[simp] theorem State.addDiag_insts : (s.addDiag e).insts = s.insts := rfl
@[simp] theorem State.addDiag_diag : (s.addDiag e).diag = s.diag ++ [⟨e⟩] := rfl
@[simp] theorem State.addDiag_inputs : (s.addDiag e).inputs = s.inputs := rfl
@[simp] theorem State.addDiag_responses : (s.addDiag e).responses = s.responses := rfl

@[simp] theorem State.takeInput_params : (s.takeInput rest).params = s.params := rfl
@[simp] theorem State.takeInput_prop : (s.takeInput rest).prop = s.prop := rfl
@[simp] theorem State.takeInput_insts : (s.takeInput rest).insts = s.insts := rfl
@[simp] theorem State.takeInput_diag : (s.takeInput rest).diag = s.diag := rfl
@[simp] theorem State.takeInput_inputs : (s.takeInput rest).inputs = rest := rfl
@[simp] theorem State.takeInput_responses : (s.takeInput rest).responses = s.responses := rfl

end StateUpdates

section InstanceUpdates
variable (x : Instance) (f : Bytes)

@[simp] theorem Instance.emit_life : (x.emit f).life = x.life := rfl
@[simp] theorem Instance.emit_cfg : (x.emit f).cfg = x.cfg := rfl
@[simp] theorem Instance.emit_buf : (x.emit f).buf = x.buf := rfl
@[simp] theorem Instance.emit_timerArmed : (x.emit f).timerArmed = x.timerArmed := rfl
@[simp] theorem Instance.emit_idleElapsed : (x.emit f).idleElapsed = x.idleElapsed := rfl
@[simp] theorem Instance.emit_out : (x.emit f).out = x.out ++ [f] := rfl

@[simp] theorem Instance.emitNonempty_life : (x.emitNonempty f).life = x.life := by
  unfold Instance.emitNonempty; split <;> rfl
@[simp] theorem Instance.emitNonempty_cfg : (x.emitNonempty f).cfg = x.cfg := by
  unfold Instance.emitNonempty; split <;> rfl
@[simp] theorem Instance.emitNonempty_buf : (x.emitNonempty f).buf = x.buf := by
  unfold Instance.emitNonempty; split <;> rfl
@[simp] theorem Instance.emitNonempty_timerArmed : (x.emitNonempty f).timerArmed = x.timerArmed := by
  unfold Instance.emitNonempty; split <;> rfl
@[simp] theorem Instance.emitNonempty_idleElapsed : (x.emitNonempty f).idleElapsed = x.idleElapsed := by
  unfold Instance.emitNonempty; split <;> rfl
@[simp] theorem Instance.emitNonempty_out :
    (x.emitNonempty f).out = if f = [] then x.out else x.out ++ [f] := by
  unfold Instance.emitNonempty; split <;> rfl

end InstanceUpdates

end Sys2Proof.Machine
end

