-- ==== Sys2Proof/Laws/Ops.lean ====
section
/-! SUPPORT. What each shared operation can do, said once: if it answers a next state, then one of these cases holds.
The meanings' spec lemmas below are built from them. -/

namespace Sys2Proof.Machine

@[simp] theorem respondOk_next (s t : State) (pl : Payload) :
    respondOk s pl = .next t ↔ s.answer .ok pl = t := by simp [respondOk]

@[simp] theorem raiseOutcome_next (s t : State) (st : Status) (pl : Payload) :
    raiseOutcome s st pl = .next t ↔ s.answer st pl = t := by simp [raiseOutcome]

theorem eq_of_respondOk {s t : State} {pl : Payload} (h : respondOk s pl = .next t) : t = s.answer .ok pl :=
  ((respondOk_next s t pl).1 h).symm

theorem eq_of_raiseOutcome {s t : State} {st : Status} {pl : Payload} (h : raiseOutcome s st pl = .next t) :
    t = s.answer st pl := ((raiseOutcome_next s t st pl).1 h).symm

/-- An operation on an instance either finds none, and the request is malformed, or runs on it. -/
theorem withInstance_cases {s t : State} {inst : Byte} {run : Instance → Result}
    (h : withInstance s inst run = .next t) :
    (s.insts[inst.toNat]? = none ∧ t = s.answer .malformedRequest .none) ∨
      ∃ x, s.insts[inst.toNat]? = some x ∧ run x = .next t := by
  unfold withInstance at h
  split at h
  · exact .inl ⟨‹_›, eq_of_raiseOutcome h⟩
  · exact .inr ⟨_, ‹_›, h⟩

theorem withInstance_some {s : State} {inst : Byte} {x : Instance} {run : Instance → Result}
    (hx : s.insts[inst.toNat]? = some x) : withInstance s inst run = run x := by
  simp [withInstance, hx]

/-- An operation that needs a lifecycle state is refused outside it and runs inside it. -/
theorem requireLife_cases {s t : State} {x : Instance} {lives : List Life} {run : Result}
    (h : requireLife s x lives run = .next t) :
    (x.life ∉ lives ∧ t = s.answer .stateError .none) ∨ (x.life ∈ lives ∧ run = .next t) := by
  unfold requireLife at h
  split at h
  · exact .inr ⟨‹_›, h⟩
  · exact .inl ⟨‹_›, eq_of_raiseOutcome h⟩

/-- A read of the configuration that answers has found one. -/
theorem withConfig_cases {t : State} {x : Instance} {run : AsmConfig → Result}
    (h : withConfig x run = .next t) : ∃ c, x.cfg = some c ∧ run c = .next t := by
  unfold withConfig at h
  split at h
  · cases h
  · exact ⟨_, ‹_›, h⟩

/-- The pending condition in the spec's words (R72). -/
theorem timerPending_iff (x : Instance) :
    timerPending x = true ↔
      x.life = .running ∧ x.timerArmed = true ∧ ∃ c, x.cfg = some c ∧ c.idle.toNat ≤ x.idleElapsed.toNat := by
  unfold timerPending
  cases x.cfg <;> simp [and_assoc]

/-- The saturating counter as a number (R71). -/
theorem elapse_toNat (e ms idle : U32) : (elapse e ms idle).toNat = min (e.toNat + ms.toNat) idle.toNat := by
  have := idle.isLt
  simp only [elapse, BitVec.toNat_ofNat]
  omega

/-- A configuration has no problem exactly when it is legal (R66). -/
theorem configProblem_none_iff (p : Params) (c : AsmConfig) : configProblem p c = none ↔ c.Legal p := by
  unfold configProblem
  constructor
  · intro h
    split at h <;> [cases h; split at h <;> [cases h; split at h <;> [cases h; split at h <;> [cases h; skip]]]]
    refine ⟨?_, ?_, ?_, ?_, ?_, ?_⟩ <;> omega
  · rintro ⟨h1, h2, h3, h4, h5, h6⟩
    rw [if_neg (by omega), if_neg (by omega), if_neg (by omega), if_neg (by omega)]

/-! What each Assembler operation can do. -/

theorem execAsmConfigure_cases {s t : State} {inst : Byte} {fl : CfgFlags} {bd : Bytes} {mb idl : U32}
    (h : execAsmConfigure inst fl bd mb idl s = .next t) :
    (s.insts[inst.toNat]? = none ∧ t = s.answer .malformedRequest .none) ∨
    ∃ x, s.insts[inst.toNat]? = some x ∧
      ((∃ e, configProblem s.params (configOf fl bd mb idl) = some e ∧
          t = (s.setInst inst.toNat (discarded x)).answer .configError (.configError e)) ∨
        (configProblem s.params (configOf fl bd mb idl) = none ∧
          t = (s.setInst inst.toNat
            { discarded x with life := .running, cfg := some (configOf fl bd mb idl) }).answer .ok .none)) := by
  rcases withInstance_cases h with h | ⟨x, hx, h⟩
  · exact .inl h
  · refine .inr ⟨x, hx, ?_⟩
    dsimp only at h
    split at h
    · exact .inl ⟨_, ‹_›, eq_of_raiseOutcome h⟩
    · exact .inr ⟨‹_›, eq_of_respondOk h⟩

theorem execAsmPush_cases {s t : State} {inst : Byte} {chunk : Bytes} (h : execAsmPush inst chunk s = .next t) :
    (s.insts[inst.toNat]? = none ∧ t = s.answer .malformedRequest .none) ∨
    ∃ x, s.insts[inst.toNat]? = some x ∧
      ((x.life ≠ .running ∧ t = s.answer .stateError .none) ∨
        ∃ c, x.life = .running ∧ x.cfg = some c ∧
          t = (s.setInst inst.toNat (pushed x c chunk)).answer .ok .none) := by
  rcases withInstance_cases h with h | ⟨x, hx, h⟩
  · exact .inl h
  · refine .inr ⟨x, hx, ?_⟩
    rcases requireLife_cases h with ⟨hl, h⟩ | ⟨hl, h⟩
    · exact .inl ⟨(by simpa using hl), h⟩
    · obtain ⟨c, hc, h⟩ := withConfig_cases h
      exact .inr ⟨c, (by simpa using hl), hc, eq_of_respondOk h⟩

theorem execAsmTick_cases {s t : State} {inst : Byte} {ms : U32} (h : execAsmTick inst ms s = .next t) :
    (s.insts[inst.toNat]? = none ∧ t = s.answer .malformedRequest .none) ∨
    ∃ x, s.insts[inst.toNat]? = some x ∧
      ((x.life ≠ .running ∧ t = s.answer .stateError .none) ∨
        (x.life = .running ∧ x.timerArmed = false ∧ t = s.answer .ok .none) ∨
        ∃ c, x.life = .running ∧ x.timerArmed = true ∧ x.cfg = some c ∧
          t = (s.setInst inst.toNat { x with idleElapsed := elapse x.idleElapsed ms c.idle }).answer .ok .none) := by
  rcases withInstance_cases h with h | ⟨x, hx, h⟩
  · exact .inl h
  · refine .inr ⟨x, hx, ?_⟩
    rcases requireLife_cases h with ⟨hl, h⟩ | ⟨hl, h⟩
    · exact .inl ⟨(by simpa using hl), h⟩
    · split at h
      · obtain ⟨c, hc, h⟩ := withConfig_cases h
        exact .inr (.inr ⟨c, (by simpa using hl), ‹_›, hc, eq_of_respondOk h⟩)
      · exact .inr (.inl ⟨(by simpa using hl), Bool.eq_false_iff.2 ‹_›, eq_of_respondOk h⟩)

theorem execAsmIdleFire_cases {s t : State} {inst : Byte} (h : execAsmIdleFire inst s = .next t) :
    ∃ x, s.insts[inst.toNat]? = some x ∧ timerPending x = true ∧
      t = s.setInst inst.toNat { x.emitNonempty x.buf with buf := [], timerArmed := false } := by
  unfold execAsmIdleFire at h
  split at h
  · cases h
  · split at h
    · exact ⟨_, ‹_›, ‹_›, (by simpa using h.symm)⟩
    · cases h

theorem execAsmEnd_cases {s t : State} {inst : Byte} (h : execAsmEnd inst s = .next t) :
    (s.insts[inst.toNat]? = none ∧ t = s.answer .malformedRequest .none) ∨
    ∃ x, s.insts[inst.toNat]? = some x ∧
      ((x.life ≠ .running ∧ t = s.answer .stateError .none) ∨
        (x.life = .running ∧
          t = (s.setInst inst.toNat
            { x.emitNonempty x.buf with buf := [], timerArmed := false, life := .closed }).answer .ok .none)) := by
  rcases withInstance_cases h with h | ⟨x, hx, h⟩
  · exact .inl h
  · refine .inr ⟨x, hx, ?_⟩
    rcases requireLife_cases h with ⟨hl, h⟩ | ⟨hl, h⟩
    · exact .inl ⟨(by simpa using hl), h⟩
    · exact .inr ⟨(by simpa using hl), eq_of_respondOk h⟩

theorem execAsmDestroy_cases {s t : State} {inst : Byte} (h : execAsmDestroy inst s = .next t) :
    (s.insts[inst.toNat]? = none ∧ t = s.answer .malformedRequest .none) ∨
    ∃ x, s.insts[inst.toNat]? = some x ∧
      ((x.life ∉ [Life.running, Life.closed] ∧ t = s.answer .stateError .none) ∨
        (x.life ∈ [Life.running, Life.closed] ∧
          t = (s.setInst inst.toNat { x with buf := [], timerArmed := false, life := .destroyed }).answer .ok .none)) := by
  rcases withInstance_cases h with h | ⟨x, hx, h⟩
  · exact .inl h
  · refine .inr ⟨x, hx, ?_⟩
    rcases requireLife_cases h with ⟨hl, h⟩ | ⟨hl, h⟩
    · exact .inl ⟨hl, h⟩
    · exact .inr ⟨hl, eq_of_respondOk h⟩

/-- What an accepted push makes of an instance: the timer armed afresh, and one of three cuts: the cap first, then the
first boundary, else none (R67). -/
theorem pushed_cases (x : Instance) (c : AsmConfig) (chunk : Bytes) :
    (c.maxBuf.toNat ≤ (x.buf ++ chunk).length ∧ pushed x c chunk =
      { x.emitNonempty ((x.buf ++ chunk).take c.maxBuf.toNat) with buf := [], timerArmed := true, idleElapsed := 0 }) ∨
    ((x.buf ++ chunk).length < c.maxBuf.toNat ∧ ∃ p, find (x.buf ++ chunk) c.boundary = some p ∧ pushed x c chunk =
      { x.emitNonempty ((x.buf ++ chunk).take (if c.includeBoundary then p + c.boundary.length else p)) with
        buf := [], timerArmed := true, idleElapsed := 0 }) ∨
    ((x.buf ++ chunk).length < c.maxBuf.toNat ∧ find (x.buf ++ chunk) c.boundary = none ∧ pushed x c chunk =
      { x with buf := x.buf ++ chunk, timerArmed := true, idleElapsed := 0 }) := by
  unfold pushed cutBuffer
  by_cases h : c.maxBuf.toNat ≤ (x.buf ++ chunk).length
  · exact .inl ⟨h, by simp only [if_pos h]⟩
  · refine .inr ?_
    simp only [if_neg h]
    cases hf : find (x.buf ++ chunk) c.boundary with
    | some p => exact .inl ⟨by omega, p, rfl, rfl⟩
    | none => exact .inr ⟨by omega, rfl, rfl⟩

/-- An instruction that addresses no instance appends one response, and a `DIAG` record at most; both depend on the
Property Table alone. -/
def codecAnswer (table : List PropEntry) : Instr → Option (Response × List DiagRecord)
  | .codecEncode digits cmd name =>
    match encodeFrame table digits cmd name with
    | .ok f => some (⟨.ok, .bytes f⟩, [])
    | .error e => some (⟨.encError e, .bytes []⟩, [⟨e⟩])
  | .codecDecode f => some (⟨.ok, .decoded (decodeFrame table f)⟩, [])
  | .uSerialPack digits =>
    match serialPack digits with
    | .ok ser => some (⟨.ok, .bytes ser.toList⟩, [])
    | .error e => some (⟨.encError e, .bytes []⟩, [])
  | .uSerialUnpack ser => some (⟨.ok, .str (serialUnpack ser)⟩, [])
  | .uBiasAdd b => some (⟨.ok, .byte (biasAdd b)⟩, [])
  | .uBiasSub b => some (⟨.ok, .byte (biasSub b)⟩, [])
  | .uChecksumGen data => some (⟨.ok, .byte (checksum data)⟩, [])
  | .uChecksumVerify data cs => some (⟨.ok, .bit (checksumOk data cs)⟩, [])
  | .uPropByName name =>
    match propByName table name with
    | .ok code => some (⟨.ok, .bytes code.toList⟩, [])
    | .error e => some (⟨.encError e, .none⟩, [])
  | .uPropByCode code => some (⟨.ok, .lookup ((propByCode table code).map fun e => (e.name, entryScale e))⟩, [])
  | .uPairValue b => some (⟨.ok, .nat (pairValue b)⟩, [])
  | .uBcdValue data => some (⟨.ok, .nat (bcdValue data)⟩, [])
  | .uScale raw name =>
    match scaleByName table (leNat raw) name with
    | .ok q => some (⟨.ok, .rat q⟩, [])
    | .error e => some (⟨.encError e, .none⟩, [])
  | .uHex2 b => some (⟨.ok, .str (hex2 b)⟩, [])
  | .reservedOp _ _ => some (⟨.reservedOp, .none⟩, [])
  | .wireReadRequest f => some (⟨.ok, .decoded (decodeWith (unknownCommand f) f)⟩, [])
  | .wireReadResponse f => some (⟨.ok, .decoded (decodeWith (response91 table f) f)⟩, [])
  | .wireReadResponseMore f => some (⟨.ok, .decoded (decodeWith (response91 table f) f)⟩, [])
  | .wireErrorResponse f => some (⟨.ok, .decoded (decodeWith (errorResponse f) f)⟩, [])
  | .wireOtherCommand f => some (⟨.ok, .decoded (decodeWith (unknownCommand f) f)⟩, [])
  | _ => none

/-- The spec lemma of every instruction outside the Assembler family. -/
theorem exec_of_codecAnswer {i : Instr} {s : State} {r : Response} {d : List DiagRecord}
    (h : codecAnswer s.prop i = some (r, d)) :
    exec i s = .next { s with responses := s.responses ++ [r], diag := s.diag ++ d } := by
  cases i <;> simp only [codecAnswer, reduceCtorEq] at h <;>
    first
    | (split at h <;> (cases h; simp_all [exec, execCodecEncode, execUSerialPack, execUPropByName, execUScale,
        respondExcept, respondOk, raiseOutcome, State.answer, State.addDiag]))
    | (cases h; simp [exec, execCodecDecode, execUSerialUnpack, execUBiasAdd, execUBiasSub, execUChecksumGen,
        execUChecksumVerify, execUPropByCode, execUPairValue, execUBcdValue, execUHex2, execReservedOp,
        execWireReadRequest, execWireReadResponse, execWireReadResponseMore, execWireErrorResponse,
        execWireOtherCommand, respondDecoded, respondOk, raiseOutcome, State.answer])

end Sys2Proof.Machine
end

