-- ==== Sys2Proof/Laws/PerInstr.lean ====
section
/-! SUPPORT. What holds of each instruction as syntax, one lemma per constructor: the encoder lays out exactly as many
bytes as the layout of the instruction's code needs (spec/30_encoding.md R57, R62). -/

namespace Sys2Proof.Machine

/-- A count byte holds its count (R57). -/
theorem countByte_toNat {n : Nat} (h : n < 256) : (countByte n).toNat = n := by
  simp [countByte, Nat.mod_eq_of_lt h]

/-- A `u16` operand reads back where it was laid down (R57, R61). -/
theorem u16At_two {n : Nat} (h : n < 65536) (a b : Byte) (rest : Bytes) :
    u16At (a :: b :: BitVec.ofNat 8 n :: BitVec.ofNat 8 (n / 256) :: rest) 2 = n := by
  simp only [u16At, byteAt_cons_succ, byteAt_cons_zero, BitVec.toNat_ofNat]
  omega

/-- The byte after a sequence behind a fixed head. -/
theorem byteAt_after (s t : Bytes) (k : Nat) : byteAt (s ++ t) (k + s.length) = byteAt t k := by
  rw [byteAt_append_right (by omega), Nat.add_sub_cancel]

/-- A request to decode a frame has its layout's length (R57). -/
theorem requestLength_decodeFrameRequest (f : Bytes) (h : f.length < 65536) :
    requestLength (decodeFrameRequest f) = (decodeFrameRequest f).length := by
  simp [requestLength, decodeFrameRequest, u16At_two h, u16Bytes]
  omega

end Sys2Proof.Machine

namespace Sys2Proof.Laws.EncodeLength

open Sys2Proof Sys2Proof.Machine

/-- A well-formed instruction is encoded in the length its own layout needs. -/
def Statement (i : Instr) : Prop :=
  ∀ p : Params, i.wellFormed p = true → requestLength (encode i) = (encode i).length

theorem asmConfigure (inst : Byte) (fl : CfgFlags) (bd : Bytes) (mb idl : U32) :
    Statement (.asmConfigure inst fl bd mb idl) := by
  intro p h
  have hb : bd.length < 256 := by
    simp only [Instr.wellFormed, fitsU8, Bool.and_eq_true, decide_eq_true_eq] at h; exact h.2
  simp [requestLength, encode, countByte_toNat hb, u32Bytes]
  omega

theorem asmPush (inst : Byte) (chunk : Bytes) : Statement (.asmPush inst chunk) := by
  intro p h
  have hb : chunk.length < 65536 := by
    simp only [Instr.wellFormed, fitsU16, Bool.and_eq_true, decide_eq_true_eq] at h; exact h.1.2
  simp [requestLength, encode, u16At_two hb, u16Bytes]
  omega

theorem asmTick (inst : Byte) (ms : U32) : Statement (.asmTick inst ms) := fun _ _ => rfl
theorem asmIdleFire (inst : Byte) : Statement (.asmIdleFire inst) := fun _ _ => rfl
theorem asmEnd (inst : Byte) : Statement (.asmEnd inst) := fun _ _ => rfl
theorem asmDestroy (inst : Byte) : Statement (.asmDestroy inst) := fun _ _ => rfl

theorem codecEncode (digits : Bytes) (cmd : Byte) (name : Str) : Statement (.codecEncode digits cmd name) := by
  intro p h
  simp only [Instr.wellFormed, fitsU8, Bool.and_eq_true, decide_eq_true_eq] at h
  have hn : byteAt (encode (.codecEncode digits cmd name)) (4 + digits.length) = countByte name.length := by
    rw [show 4 + digits.length = 1 + digits.length + 3 by omega]
    simp [encode, byteAt_after digits _ 1]
  have hd : (byteAt (encode (.codecEncode digits cmd name)) 2).toNat = digits.length := by
    simp [encode, countByte_toNat h.1]
  have h0 : byteAt (encode (.codecEncode digits cmd name)) 0 = 0x10 := by simp [encode]
  simp only [requestLength, h0, hd, hn, countByte_toNat h.2]
  simp [encode]
  omega

theorem codecDecode (f : Bytes) : Statement (.codecDecode f) := by
  intro p h
  simp only [Instr.wellFormed, fitsU16, Bool.and_eq_true, decide_eq_true_eq] at h
  exact requestLength_decodeFrameRequest f h.1

theorem uSerialPack (digits : Bytes) : Statement (.uSerialPack digits) := by
  intro p h
  simp only [Instr.wellFormed, fitsU8, decide_eq_true_eq] at h
  simp [requestLength, encode, countByte_toNat h]
  omega

theorem uSerialUnpack (ser : Serial) : Statement (.uSerialUnpack ser) := fun _ _ => rfl
theorem uBiasAdd (b : Byte) : Statement (.uBiasAdd b) := fun _ _ => rfl
theorem uBiasSub (b : Byte) : Statement (.uBiasSub b) := fun _ _ => rfl

theorem uChecksumGen (data : Bytes) : Statement (.uChecksumGen data) := by
  intro p h
  simp only [Instr.wellFormed, fitsU16, decide_eq_true_eq] at h
  simp [requestLength, encode, u16At_two h, u16Bytes]
  omega

theorem uChecksumVerify (data : Bytes) (cs : Byte) : Statement (.uChecksumVerify data cs) := by
  intro p h
  simp only [Instr.wellFormed, fitsU16, decide_eq_true_eq] at h
  simp [requestLength, encode, u16At_two h, u16Bytes]
  omega

theorem uPropByName (name : Str) : Statement (.uPropByName name) := by
  intro p h
  simp only [Instr.wellFormed, fitsU8, decide_eq_true_eq] at h
  simp [requestLength, encode, countByte_toNat h]
  omega

theorem uPropByCode (code : Code) : Statement (.uPropByCode code) := fun _ _ => rfl
theorem uPairValue (b : Byte) : Statement (.uPairValue b) := fun _ _ => rfl

theorem uBcdValue (data : Bytes) : Statement (.uBcdValue data) := by
  intro p h
  simp only [Instr.wellFormed, fitsU8, decide_eq_true_eq] at h
  simp [requestLength, encode, countByte_toNat h]
  omega

theorem uScale (raw : Bytes) (name : Str) : Statement (.uScale raw name) := by
  intro p h
  simp only [Instr.wellFormed, fitsU8, Bool.and_eq_true, decide_eq_true_eq] at h
  have hn : byteAt (encode (.uScale raw name)) (3 + raw.length) = countByte name.length := by
    rw [show 3 + raw.length = 0 + raw.length + 3 by omega]
    simp [encode, byteAt_append_right]
  have hd : (byteAt (encode (.uScale raw name)) 2).toNat = raw.length := by simp [encode, countByte_toNat h.1]
  have h0 : byteAt (encode (.uScale raw name)) 0 = 0x2A := by simp [encode]
  simp only [requestLength, h0, hd, hn, countByte_toNat h.2]
  simp [encode]
  omega

theorem uHex2 (b : Byte) : Statement (.uHex2 b) := fun _ _ => rfl

/-- A reserved code has no layout, so any length is its own (R58). -/
theorem reservedOp (op : Byte) (rest : Bytes) : Statement (.reservedOp op rest) := by
  intro p h
  change isReservedOp op = true at h
  simp only [encode, requestLength, byteAt_cons_zero]
  split <;> first
    | rfl
    | (rename_i heq
       rw [show op = BitVec.ofNat 8 op.toNat by simp, heq] at h
       exact absurd h (by decide))

theorem wireReadRequest (f : Bytes) : Statement (.wireReadRequest f) := by
  intro p h
  simp only [Instr.wellFormed, fitsU16, Bool.and_eq_true, decide_eq_true_eq] at h
  exact requestLength_decodeFrameRequest f h.1.1

theorem wireReadResponse (f : Bytes) : Statement (.wireReadResponse f) := by
  intro p h
  simp only [Instr.wellFormed, fitsU16, Bool.and_eq_true, decide_eq_true_eq] at h
  exact requestLength_decodeFrameRequest f h.1.1

theorem wireReadResponseMore (f : Bytes) : Statement (.wireReadResponseMore f) := by
  intro p h
  simp only [Instr.wellFormed, fitsU16, Bool.and_eq_true, decide_eq_true_eq] at h
  exact requestLength_decodeFrameRequest f h.1.1

theorem wireErrorResponse (f : Bytes) : Statement (.wireErrorResponse f) := by
  intro p h
  simp only [Instr.wellFormed, fitsU16, Bool.and_eq_true, decide_eq_true_eq] at h
  exact requestLength_decodeFrameRequest f h.1.1

theorem wireOtherCommand (f : Bytes) : Statement (.wireOtherCommand f) := by
  intro p h
  simp only [Instr.wellFormed, fitsU16, Bool.and_eq_true, decide_eq_true_eq] at h
  exact requestLength_decodeFrameRequest f h.1.1

end Sys2Proof.Laws.EncodeLength
end

