-- ==== Sys2Proof/Laws/Step.lean ====
section
/-! SUPPORT. What a step can do, said once: which instance changes and how, and what is appended to the streams. Every
whole-machine statement follows from these inversion lemmas. -/

namespace Sys2Proof.Machine

/-- How an instruction can change the instance it addresses (spec/40_assembler.md). -/
inductive InstStep (p : Params) (x : Instance) : Instr → Instance → Prop where
  | refuse {inst fl bd mb idl} : InstStep p x (.asmConfigure inst fl bd mb idl) (discarded x)
  | configure {inst fl bd mb idl} : (configOf fl bd mb idl).Legal p →
      InstStep p x (.asmConfigure inst fl bd mb idl)
        { discarded x with life := .running, cfg := some (configOf fl bd mb idl) }
  | push {inst chunk c} : x.life = .running → x.cfg = some c → InstStep p x (.asmPush inst chunk) (pushed x c chunk)
  | tick {inst ms c} : x.life = .running → x.cfg = some c → x.timerArmed = true →
      InstStep p x (.asmTick inst ms) { x with idleElapsed := elapse x.idleElapsed ms c.idle }
  | fire {inst} : timerPending x = true →
      InstStep p x (.asmIdleFire inst) { x.emitNonempty x.buf with buf := [], timerArmed := false }
  | finish {inst} : x.life = .running →
      InstStep p x (.asmEnd inst) { x.emitNonempty x.buf with buf := [], timerArmed := false, life := .closed }
  | destroy {inst} : x.life ∈ [Life.running, Life.closed] →
      InstStep p x (.asmDestroy inst) { x with buf := [], timerArmed := false, life := .destroyed }

/-- The instance an instruction of the Assembler family addresses. -/
def target : Instr → Option Nat
  | .asmConfigure inst _ _ _ _ => some inst.toNat
  | .asmPush inst _ => some inst.toNat
  | .asmTick inst _ => some inst.toNat
  | .asmIdleFire inst => some inst.toNat
  | .asmEnd inst => some inst.toNat
  | .asmDestroy inst => some inst.toNat
  | _ => none

/-- Whether an instruction is the timer event, which has no response (R72). -/
def isEvent : Instr → Bool
  | .asmIdleFire _ => true
  | _ => false

/-- A response added to a state, unless the instruction is the timer event. -/
def withResponses (s : State) : Option Response → State
  | none => s
  | some r => { s with responses := s.responses ++ [r] }

/-- What an instruction of the Assembler family can do: answer and change nothing, or change the one instance it
addresses by a step of that instance; a response is given unless it is the timer event. -/
theorem exec_assembler_cases {i : Instr} {s t : State} {k : Nat} (hk : target i = some k) (h : exec i s = .next t) :
    ∃ r : Option Response, (r = none ↔ isEvent i = true) ∧
      (t = withResponses s r ∨
        ∃ x y, s.insts[k]? = some x ∧ InstStep s.params x i y ∧ t = withResponses (s.setInst k y) r) := by
  cases i <;> simp only [target, reduceCtorEq, Option.some.injEq] at hk <;> subst hk <;> simp only [exec] at h
  case asmConfigure =>
    rcases execAsmConfigure_cases h with ⟨_, rfl⟩ | ⟨x, hx, ⟨e, _, rfl⟩ | ⟨hc, rfl⟩⟩
    · exact ⟨some _, (by simp [isEvent]), .inl rfl⟩
    · exact ⟨some _, (by simp [isEvent]), .inr ⟨x, _, hx, .refuse, rfl⟩⟩
    · exact ⟨some _, (by simp [isEvent]), .inr ⟨x, _, hx, .configure ((configProblem_none_iff _ _).1 hc), rfl⟩⟩
  case asmPush =>
    rcases execAsmPush_cases h with ⟨_, rfl⟩ | ⟨x, hx, ⟨_, rfl⟩ | ⟨c, hl, hc, rfl⟩⟩
    · exact ⟨some _, (by simp [isEvent]), .inl rfl⟩
    · exact ⟨some _, (by simp [isEvent]), .inl rfl⟩
    · exact ⟨some _, (by simp [isEvent]), .inr ⟨x, _, hx, .push hl hc, rfl⟩⟩
  case asmTick =>
    rcases execAsmTick_cases h with ⟨_, rfl⟩ | ⟨x, hx, ⟨_, rfl⟩ | ⟨_, _, rfl⟩ | ⟨c, hl, ha, hc, rfl⟩⟩
    · exact ⟨some _, (by simp [isEvent]), .inl rfl⟩
    · exact ⟨some _, (by simp [isEvent]), .inl rfl⟩
    · exact ⟨some _, (by simp [isEvent]), .inl rfl⟩
    · exact ⟨some _, (by simp [isEvent]), .inr ⟨x, _, hx, .tick hl hc ha, rfl⟩⟩
  case asmIdleFire =>
    obtain ⟨x, hx, hp, rfl⟩ := execAsmIdleFire_cases h
    exact ⟨none, (by simp [isEvent]), .inr ⟨x, _, hx, .fire hp, rfl⟩⟩
  case asmEnd =>
    rcases execAsmEnd_cases h with ⟨_, rfl⟩ | ⟨x, hx, ⟨_, rfl⟩ | ⟨hl, rfl⟩⟩
    · exact ⟨some _, (by simp [isEvent]), .inl rfl⟩
    · exact ⟨some _, (by simp [isEvent]), .inl rfl⟩
    · exact ⟨some _, (by simp [isEvent]), .inr ⟨x, _, hx, .finish hl, rfl⟩⟩
  case asmDestroy =>
    rcases execAsmDestroy_cases h with ⟨_, rfl⟩ | ⟨x, hx, ⟨_, rfl⟩ | ⟨hl, rfl⟩⟩
    · exact ⟨some _, (by simp [isEvent]), .inl rfl⟩
    · exact ⟨some _, (by simp [isEvent]), .inl rfl⟩
    · exact ⟨some _, (by simp [isEvent]), .inr ⟨x, _, hx, .destroy hl, rfl⟩⟩

/-- An instruction that addresses no instance always answers, from the Property Table alone. -/
theorem exec_codec {i : Instr} (s : State) (hi : target i = none) :
    ∃ r d, codecAnswer s.prop i = some (r, d) ∧
      exec i s = .next { s with responses := s.responses ++ [r], diag := s.diag ++ d } := by
  have : ∃ r d, codecAnswer s.prop i = some (r, d) := by
    cases i <;> simp only [target, reduceCtorEq] at hi <;> simp only [codecAnswer] <;>
      (try split) <;> exact ⟨_, _, rfl⟩
  obtain ⟨r, d, h⟩ := this
  exact ⟨r, d, h, exec_of_codecAnswer h⟩

/-- What a step can do: take an input and answer a malformed request, take an input and run its instruction, run a
pending timer event because nothing arrives, or wait. -/
theorem step_cases {s t : State} (h : step s = .next t) :
    (∃ q rest e, s.inputs = .request q :: rest ∧ decodeRequest s.params q = .error e ∧
        t = (s.takeInput rest).answer .malformedRequest .none) ∨
    (∃ x rest i, s.inputs = x :: rest ∧ decodeInput s.params x = .ok i ∧ exec i (s.takeInput rest) = .next t) ∨
    (∃ inst, s.inputs = [] ∧ s.pendingTimer = some inst ∧ exec (.asmIdleFire inst) s = .next t) ∨
    (s.inputs = [] ∧ s.pendingTimer = none ∧ t = s) := by
  unfold step at h
  split at h
  · rename_i hi
    unfold runIdle at h
    split at h
    · exact .inr (.inr (.inl ⟨_, hi, ‹_›, h⟩))
    · exact .inr (.inr (.inr ⟨hi, ‹_›, (by simpa using h.symm)⟩))
  · rename_i x rest hi
    unfold runInput at h
    simp only [State.takeInput_params] at h
    split at h
    · exact .inr (.inl ⟨x, rest, _, hi, ‹_›, h⟩)
    · rename_i e he
      cases x with
      | timer inst => simp [decodeInput] at he
      | request q =>
        refine .inl ⟨q, rest, e, hi, ?_, eq_of_raiseOutcome h⟩
        simp only [decodeInput] at he
        cases hd : decodeRequest s.params q <;> simp_all [Except.map]

/-- A timer event pending for the idle step is pending in its instance (R72). -/
theorem pendingTimer_spec {s : State} {inst : Byte} (h : s.pendingTimer = some inst) :
    ∃ x, s.insts[inst.toNat]? = some x ∧ timerPending x = true ∧
      ∀ (j : Nat) (y : Instance), j < inst.toNat → s.insts[j]? = some y → timerPending y = false := by
  simp only [State.pendingTimer, Option.map_eq_some_iff] at h
  obtain ⟨k, hk, rfl⟩ := h
  rw [List.findIdx?_eq_some_iff_getElem] at hk
  obtain ⟨hlt, hp, hmin⟩ := hk
  have hk : k < 256 ∧ k < s.insts.length := by simpa using hlt
  rw [BitVec.toNat_ofNat, Nat.mod_eq_of_lt (by omega)]
  refine ⟨s.insts[k], by simp [hk.2], by simpa using hp, fun j y hj hy => ?_⟩
  have hj' := hmin j hj
  rw [List.getElem?_eq_some_iff] at hy
  obtain ⟨hjl, rfl⟩ := hy
  simpa using hj'

end Sys2Proof.Machine
end

