-- ==== Sys2Proof/Laws/Units.lean ====
section
/-! SUPPORT. Spec lemmas of the Codec's sub-units: the table lookups in a legal table, the exact scale, the two
weighted sums, and packing and unpacking a serial number (spec/41_codec_units.md R82 to R92). -/

namespace Sys2Proof.Machine

/-! The Property Table. -/

/-- Two entries of a legal table with the same name or the same code are one entry (R26). -/
theorem table_entry_unique {t : List PropEntry} (ht : TableLegal t) {a b : PropEntry} (ha : a ∈ t) (hb : b ∈ t)
    (h : a.name = b.name ∨ a.code = b.code) : a = b := by
  obtain ⟨i, hi, rfl⟩ := List.getElem_of_mem ha
  obtain ⟨j, hj, rfl⟩ := List.getElem_of_mem hb
  have hp := List.pairwise_iff_getElem.1 ht.2.2
  rcases Nat.lt_trichotomy i j with hij | rfl | hij
  · rcases h with h | h
    exacts [absurd h (hp i j hi hj hij).1, absurd h (hp i j hi hj hij).2]
  · rfl
  · rcases h with h | h
    exacts [absurd h.symm (hp j i hj hi hij).1, absurd h.symm (hp j i hj hi hij).2]

/-- In a legal table a name finds its own entry (R88). -/
theorem entryByName_of_mem {t : List PropEntry} (ht : TableLegal t) {e : PropEntry} (he : e ∈ t) :
    entryByName t e.name = some e := by
  have hl := ht.2.1 e he
  rw [entryByName, if_neg (by rintro (h | h); exacts [hl.1 h, hl.2.1 h])]
  cases hf : t.find? fun x => x.name == e.name with
  | none => simpa using List.find?_eq_none.1 hf e he
  | some x =>
    have hx : x.name = e.name := by simpa using List.find?_some hf
    rw [table_entry_unique ht (List.mem_of_find?_eq_some hf) he (.inl hx)]

/-- A name no entry has finds nothing, and neither does a name no table may hold (R88). -/
theorem entryByName_none {t : List PropEntry} {name : Str}
    (h : (∀ e ∈ t, e.name ≠ name) ∨ name = [] ∨ name = Str.errCode) : entryByName t name = none := by
  rw [entryByName]
  split
  · rfl
  · rcases h with h | h
    · simpa using h
    · contradiction

/-- In a legal table a code finds its own entry (R89). -/
theorem propByCode_of_mem {t : List PropEntry} (ht : TableLegal t) {e : PropEntry} (he : e ∈ t) :
    propByCode t e.code = some e := by
  rw [propByCode]
  cases hf : t.find? fun x => x.code == e.code with
  | none => simpa using List.find?_eq_none.1 hf e he
  | some x =>
    have hx : x.code = e.code := by simpa using List.find?_some hf
    rw [table_entry_unique ht (List.mem_of_find?_eq_some hf) he (.inr hx)]

/-- A code no entry has finds nothing (R89). -/
theorem propByCode_none {t : List PropEntry} {code : Code} (h : ∀ e ∈ t, e.code ≠ code) :
    propByCode t code = none := by
  simpa [propByCode] using h

/-- What a lookup by code finds is an entry of the table (R89). -/
theorem propByCode_mem {t : List PropEntry} {code : Code} {e : PropEntry} (h : propByCode t code = some e) : e ∈ t :=
  List.mem_of_find?_eq_some h

/-- The scale of an entry as a quotient (R26). -/
theorem entryScale_eq (e : PropEntry) : entryScale e = (e.scaleNum : Rat) / 10 ^ e.scaleExp := by
  rw [entryScale, Rat.mkRat_eq_div]; push_cast; rfl

/-- Scaling is the exact product (R92). -/
theorem scaleBy_eq (raw : Nat) (e : PropEntry) : scaleBy raw e = (raw : Rat) * ((e.scaleNum : Rat) / 10 ^ e.scaleExp) := by
  rw [scaleBy, Rat.mkRat_eq_div]; push_cast; ring

/-! Weighted sums. -/

theorem sum_byteAt_cons (f : Byte → Nat) (b : Byte) (rest : Bytes) (w : Nat) :
    ∑ i ∈ Finset.range (b :: rest).length, f (byteAt (b :: rest) i) * w ^ i =
      f b + w * ∑ i ∈ Finset.range rest.length, f (byteAt rest i) * w ^ i := by
  rw [List.length_cons, Finset.sum_range_succ', Finset.mul_sum, Nat.add_comm]
  simp only [byteAt_cons_zero, byteAt_cons_succ, pow_zero, mul_one]
  congr 1
  exact Finset.sum_congr rfl fun i _ => by ring

/-- A little-endian integer is the sum of its bytes at their weights (R61). -/
theorem leNat_eq_sum (s : Bytes) : leNat s = ∑ i ∈ Finset.range s.length, (byteAt s i).toNat * 256 ^ i := by
  induction s with
  | nil => rfl
  | cons b rest ih => rw [sum_byteAt_cons BitVec.toNat, leNat, ih]

/-- A BCD value is the sum of its pairs at their weights (R91). -/
theorem bcdValue_eq_sum (v : Bytes) : bcdValue v = ∑ i ∈ Finset.range v.length, pairValue (byteAt v i) * 100 ^ i := by
  induction v with
  | nil => rfl
  | cons b rest ih => rw [sum_byteAt_cons pairValue, bcdValue, ih]

/-! Serial numbers. -/

/-- The padding puts the digits last (R82). -/
theorem paddedDigit_eq (digits : Bytes) (h : digits.length ≤ 12) (i : Nat) (hi : i < 12) :
    paddedDigit digits i = if 11 - i < digits.length then byteAt digits (digits.length - 1 - (11 - i)) else 0 := by
  unfold paddedDigit
  by_cases hlt : i < 12 - digits.length
  · rw [byteAt_append_left (by simpa using hlt), byteAt_eq_getElem (by simpa using hlt), if_neg (by omega)]
    simp
  · rw [byteAt_append_right (by simpa using hlt), if_pos (by omega), List.length_replicate]
    congr 1; omega

/-- One packed pair as a number (R39). -/
theorem packPair_toNat {hi lo : Byte} (h1 : hi.toNat ≤ 9) (h2 : lo.toNat ≤ 9) :
    (packPair hi lo).toNat = 16 * hi.toNat + lo.toNat := by
  have key : ∀ a b : Fin 10,
      (packPair (BitVec.ofNat 8 a.val) (BitVec.ofNat 8 b.val)).toNat = 16 * a.val + b.val := by decide
  have := key ⟨hi.toNat, by omega⟩ ⟨lo.toNat, by omega⟩
  simpa using this

/-- Every padded digit of valid digits is a digit. -/
theorem paddedDigit_le {digits : Bytes} (hd : ∀ d ∈ digits, d.toNat ≤ 9) (i : Nat) :
    (paddedDigit digits i).toNat ≤ 9 := by
  unfold paddedDigit byteAt
  rw [List.getD_eq_getElem?_getD]
  cases h : (List.replicate (12 - digits.length) (0 : Byte) ++ digits)[i]? with
  | none => simp
  | some d =>
    have hm := List.mem_of_getElem? h
    rcases List.mem_append.1 hm with hm | hm
    · simp [(List.mem_replicate.1 hm).2]
    · simpa using hd d hm

/-- Packing succeeds exactly on at most 12 decimal digits, and gives the six pairs, the last digits first (R82). -/
theorem serialPack_ok_iff (digits : Bytes) (ser : Serial) :
    serialPack digits = .ok ser ↔ (digits.length ≤ 12 ∧ ∀ d ∈ digits, d.toNat ≤ 9) ∧
      ser = ⟨packPair (paddedDigit digits 10) (paddedDigit digits 11), packPair (paddedDigit digits 8) (paddedDigit digits 9),
        packPair (paddedDigit digits 6) (paddedDigit digits 7), packPair (paddedDigit digits 4) (paddedDigit digits 5),
        packPair (paddedDigit digits 2) (paddedDigit digits 3), packPair (paddedDigit digits 0) (paddedDigit digits 1)⟩ := by
  unfold serialPack
  by_cases h1 : 12 < digits.length
  · simp [h1, Nat.not_le.2 h1]
  · by_cases h2 : digits.any (fun d => decide (9 < d.toNat)) = true
    · simp only [h1, h2, if_false, if_true, reduceCtorEq, false_iff]
      rintro ⟨⟨-, h⟩, -⟩
      simp only [List.any_eq_true, decide_eq_true_eq] at h2
      obtain ⟨d, hd, h9⟩ := h2
      have := h d hd
      omega
    · have h2' : ∀ d ∈ digits, d.toNat ≤ 9 := by simpa using h2
      simp only [h1, h2, if_false, Except.ok.injEq, Bool.false_eq_true]
      constructor
      · intro h; exact ⟨⟨by omega, h2'⟩, h.symm⟩
      · intro h; exact h.2.symm

/-- The two hexadecimal digits tell the bytes apart (R93). -/
theorem hex2_injective : ∀ a b : Byte, hex2 a = hex2 b → a = b := by
  have key : ∀ a : Byte, (BitVec.ofNat 8 (if byteAt (hex2 a) 0 < 58#8 then (byteAt (hex2 a) 0).toNat - 48 else (byteAt (hex2 a) 0).toNat - 87) * 16 + BitVec.ofNat 8 (if byteAt (hex2 a) 1 < 58#8 then (byteAt (hex2 a) 1).toNat - 48 else (byteAt (hex2 a) 1).toNat - 87) : Byte) = a := by
    decide
  intro a b h
  rw [← key a, ← key b, h]

/-- Unpacking leaves leading zero bytes out and renders the others (R83). -/
theorem serialUnpack_eq (ser : Serial) :
    serialUnpack ser = ((ser.toList.reverse.dropWhile (· == 0)).map hex2).flatten := by
  unfold serialUnpack
  generalize ser.toList.reverse = l
  congr 1
  induction l with
  | nil => rfl
  | cons b rest ih =>
    by_cases hb : b = 0
    · subst hb; simpa using ih
    · have h0 : (hex2 b == hex2 0) = false := by
        simpa using fun h => hb (hex2_injective b 0 h)
      have h1 : (b == 0) = false := by simpa using hb
      rw [List.map_cons, List.dropWhile_cons, h0, List.dropWhile_cons, h1]
      simp

end Sys2Proof.Machine
end

