-- ==== Sys2Proof/Laws/Wire.lean ====
section
/-! SUPPORT. Spec lemmas of the frame decoder: what `LOCATE` and the checks before the dispatch answer, the arm of each
command byte, and that every byte the decoder reads lies inside the frame (spec/43_decode.md R106 to R119). -/

namespace Sys2Proof.Machine

/-- `LOCATE` answers the first and last divider, two different ones, and the first terminator (R106). -/
theorem locate_ok_iff (f : Bytes) (p : Located) :
    locate f = .ok p ↔ first f divider = some p.start ∧ last f divider = some p.div ∧ p.div ≠ p.start ∧
      first f terminator = some p.stop := by
  obtain ⟨start, div, stop⟩ := p
  unfold locate
  cases first f divider <;> cases last f divider <;> cases first f terminator <;> simp_all <;> try split
  all_goals simp_all
  all_goals grind

/-- The first divider never lies after the last. -/
theorem first_le_last {s : Bytes} {b : Byte} {i j : Nat} (hi : first s b = some i) (hj : last s b = some j) : i ≤ j := by
  rw [first_eq_some_iff] at hi
  rw [last_eq_some_iff] at hj
  by_contra h
  exact hi.2.2 j (by omega) hj.2.1

/-- The dividers of a located frame lie in order and inside it, and so does the terminator (R106). -/
theorem locate_bounds {f : Bytes} {p : Located} (h : locate f = .ok p) :
    p.start < p.div ∧ p.div < f.length ∧ p.stop < f.length := by
  obtain ⟨h1, h2, h3, h4⟩ := (locate_ok_iff f p).1 h
  have := first_le_last h1 h2
  rw [last_eq_some_iff] at h2
  rw [first_eq_some_iff] at h4
  omega

/-- The checks before the dispatch pass exactly on a located frame with its terminator behind its checksum, the right
checksum, six serial bytes and a command byte (R106 to R110). -/
theorem header_ok_iff (f : Bytes) (p : Located) :
    header f = .ok p ↔ locate f = .ok p ∧ p.start + 1 < p.stop ∧ verify f p = true ∧ p.div = p.start + 7 ∧
      p.div + 2 < p.stop := by
  unfold header
  cases hl : locate f with
  | error e => simp
  | ok q =>
    simp only [precheck, Bool.not_eq_true', decide_eq_false_iff_not, not_lt, Except.ok.injEq]
    by_cases h1 : q.stop ≤ q.start + 1
    · simp only [h1, if_true, reduceCtorEq, false_iff]
      rintro ⟨rfl, h, -⟩; omega
    · simp only [h1, if_false]
      cases h2 : verify f q with
      | false =>
        simp only [if_true, reduceCtorEq, false_iff]
        rintro ⟨rfl, -, h, -⟩; simp_all
      | true =>
        simp only [Bool.true_eq_false, if_false, fieldcheck]
        by_cases h3 : q.div = q.start + 7
        · by_cases h4 : q.div + 2 < q.stop
          · simp only [h3, ne_eq, not_true, if_false]
            rw [h3] at h4
            simp only [h4, not_true, if_false, Except.ok.injEq]
            constructor
            · rintro rfl; exact ⟨rfl, by omega, h2, h3, by omega⟩
            · exact fun h => h.1
          · simp only [h3, ne_eq, not_true, if_false]
            rw [h3] at h4
            simp only [h4, not_false_eq_true, if_true, reduceCtorEq, false_iff]
            rintro ⟨rfl, -, -, -, h⟩; omega
        · simp only [ne_eq, h3, not_false_eq_true, if_true, reduceCtorEq, false_iff]
          rintro ⟨rfl, -, -, h, -⟩; exact h3 h

/-- Every index the dispatch and its arms read on a frame that reaches it lies inside the frame: the serial field, the
command byte, and the error byte before the terminator (R110, R111, R117; log 19). -/
theorem header_bounds {f : Bytes} {p : Located} (h : header f = .ok p) :
    p.start + 6 < p.div ∧ p.div + 1 < p.stop ∧ p.div ≤ p.stop - 3 ∧ p.stop < f.length := by
  obtain ⟨hl, -, -, h3, h4⟩ := (header_ok_iff f p).1 h
  have := locate_bounds hl
  omega

/-- The response arm reads the length byte, the code and the value bytes inside the frame (R113, R114; log 19). -/
theorem response91_bounds {f : Bytes} {p : Located} (h : header f = .ok p) (hl : p.div + 3 < p.stop)
    (hlen : p.div + 4 + (byteAt f (p.div + 2)).toNat = p.stop) (h4 : 4 ≤ (byteAt f (p.div + 2)).toNat) :
    p.div + 6 < p.stop - 1 ∧ p.div + 3 + (byteAt f (p.div + 2)).toNat < f.length := by
  have := header_bounds h
  omega

/-- A frame that reaches the dispatch is decoded by its command byte's arm (R112). -/
theorem decodeFrame_of_header {t : List PropEntry} {f : Bytes} {p : Located} (h : header f = .ok p) :
    decodeFrame t f = dispatchCommand t f p := by
  simp [decodeFrame, decodeWith, h]

/-- A frame that does not is decoded by the check that fails, whatever its command byte (R130). -/
theorem decodeFrame_of_error {t : List PropEntry} {f : Bytes} {r : DecodeResult} (h : header f = .error r) :
    decodeFrame t f = r := by
  simp [decodeFrame, decodeWith, h]

end Sys2Proof.Machine
end

