-- ==== Sys2Proof/Tests/Slice0.lean ====
section
/-! SUPPORT. The package's own tests: an ill-formed term for each check of WellFormed, words written out from
spec/30_encoding.md R57, one-step results taken from spec/95_test_vectors.md, and for every statement with hypotheses a
concrete state and operands that meet them. -/

namespace Sys2Proof.Tests

open Sys2Proof Sys2Proof.Machine

/-! ## Small states -/

/-- The limits of the test vectors. -/
abbrev par : Params := Claims.vectorParams

/-- A block with the one-entry table and the given instances and inputs. -/
def block (xs : List Instance) (inputs : List PortInput) : State := ⟨par, [PropEntry.elecUa], xs, [], inputs, []⟩

/-- `boundary=[16]` with S0's defaults. -/
def cfg16 : AsmConfig := ⟨[0x16], true, 65535, 3000⟩

/-- A running instance. -/
def run (c : AsmConfig) (buf : Bytes) (armed : Bool) (elapsed : U32) : Instance :=
  ⟨.running, some c, buf, armed, elapsed, []⟩

/-- A block whose instance 0 runs with `c` and holds `buf`; the other three are as after reset. -/
def block0 (c : AsmConfig) (buf : Bytes) (armed : Bool) (elapsed : U32) : State :=
  block [run c buf armed elapsed, Instance.reset, Instance.reset, Instance.reset] []

/-- A block as after reset, with the test vectors' limits. -/
def fresh : State := block [Instance.reset, Instance.reset, Instance.reset, Instance.reset] []

/-- The last response of a next state. -/
def resp : Result → Option Response
  | .next t => t.responses.getLast?
  | _ => none

/-- Instance 0 of a next state. -/
def inst0 : Result → Option Instance
  | .next t => t.insts[0]?
  | _ => none

/-- The frame S0F of spec/95_test_vectors.md. -/
def s0f : Bytes :=
  [0xFE, 0xFE, 0xFE, 0xFE, 0x68, 0x43, 0x10, 0x00, 0x11, 0x34, 0x00, 0x68, 0x11, 0x04, 0x33, 0x34, 0x34, 0x35, 0x4D,
    0x16]

/-- A frame with the serial field of S0F and the given bytes from the command byte on. -/
def framed (tail : Bytes) : Bytes :=
  [0xFE, 0xFE, 0xFE, 0xFE, 0x68, 0x43, 0x10, 0x00, 0x11, 0x34, 0x00, 0x68] ++ tail

/-- The frame OK91 of spec/95_test_vectors.md L1.2. -/
def ok91 : Bytes := framed [0x91, 0x06, 0x33, 0x34, 0x34, 0x35, 0x33, 0x43, 0x45, 0x16]

/-- The frame OKB1 of L2.4. -/
def okB1 : Bytes := framed [0xB1, 0x06, 0x33, 0x34, 0x34, 0x35, 0x33, 0x43, 0x65, 0x16]

/-- The frame D1 of L2.4. -/
def errD1 : Bytes := framed [0xD1, 0x01, 0x35, 0x6F, 0x16]

/-- "3411001043" as text, and as digits. -/
def sn : Str := Str.ofChars ['3', '4', '1', '1', '0', '0', '1', '0', '4', '3']
def digits10 : Bytes := [3, 4, 1, 1, 0, 0, 1, 0, 4, 3]

/-- "elecUa". -/
def elecUa : Str := [0x65, 0x6C, 0x65, 0x63, 0x55, 0x61]

/-! ## WellFormed refuses an ill-formed term for each of its checks -/

theorem test_wf_instance : (Instr.asmEnd 4).wellFormed par = false := by decide
theorem test_wf_u8 : (Instr.uSerialPack (List.replicate 256 0)).wellFormed par = false := by decide +kernel
theorem test_wf_u16 : (Instr.uChecksumGen (List.replicate 65536 0)).wellFormed par = false := by
  simp only [Instr.wellFormed, fitsU16, List.length_replicate, Nat.lt_irrefl, decide_false]
theorem test_wf_chunk : (Instr.asmPush 0 [1, 2, 3]).wellFormed { par with chunkMax := 2 } = false := by decide
theorem test_wf_frame : (Instr.codecDecode (List.replicate 21 0)).wellFormed { par with decMax := 20 } = false := by
  decide
theorem test_wf_reserved : (Instr.reservedOp 0x01 []).wellFormed par = false := by decide
theorem test_wf_wire_row : (Instr.wireErrorResponse ok91).wellFormed par = false := by decide
theorem test_wf_wire_undispatched : (Instr.wireOtherCommand [0x68, 0x16]).wellFormed par = false := by decide
theorem test_wf_accepts : (Instr.wireReadResponse ok91).wellFormed par = true := by decide

/-! ## Words written out from R57 decode to the instructions they stand for -/

/-- A6: raw `01 00 0E 01 16` and zeros. -/
theorem test_decode_configure : decodeRequest par [0x01, 0x00, 0x0E, 0x01, 0x16, 0, 0, 0, 0, 0, 0, 0, 0] =
    .ok (.asmConfigure 0 ⟨false, true, true, true⟩ [0x16] 0 0) := by decide
/-- P2 step 1: include 1, maxbuf 256, idle 100. -/
theorem test_decode_configure_fields : decodeRequest par [0x01, 1, 0x01, 1, 0x16, 0, 1, 0, 0, 0x64, 0, 0, 0] =
    .ok (.asmConfigure 1 ⟨true, false, false, false⟩ [0x16] 256 100) := by decide
theorem test_decode_push : decodeRequest par [0x02, 2, 2, 0, 0x0D, 0x0A] = .ok (.asmPush 2 [0x0D, 0x0A]) := by decide
theorem test_decode_tick : decodeRequest par [0x03, 1, 0x3C, 0, 0, 0] = .ok (.asmTick 1 60) := by decide
theorem test_decode_end : decodeRequest par [0x05, 1] = .ok (.asmEnd 1) := by decide
theorem test_decode_destroy : decodeRequest par [0x06, 2] = .ok (.asmDestroy 2) := by decide
theorem test_decode_event : decodeInput par (.timer 1) = .ok (.asmIdleFire 1) := by decide
/-- L1.1. -/
theorem test_decode_encode : decodeRequest par
    [0x10, 0, 0x0A, 3, 4, 1, 1, 0, 0, 1, 0, 4, 3, 0x11, 6, 0x65, 0x6C, 0x65, 0x63, 0x55, 0x61] =
      .ok (.codecEncode digits10 0x11 elecUa) := by decide
/-- L1.2: `11 00 16 00` and the 22 bytes of OK91, refined to the row of its command byte. -/
theorem test_decode_decode : decodeRequest par ([0x11, 0, 0x16, 0] ++ ok91) = .ok (.codecDecode ok91) := by decide
theorem test_decode_wire91 : decodeInput par (.request ([0x11, 0, 0x16, 0] ++ ok91)) = .ok (.wireReadResponse ok91) := by
  decide
theorem test_decode_wireB1 :
    decodeInput par (.request ([0x11, 0, 0x16, 0] ++ okB1)) = .ok (.wireReadResponseMore okB1) := by decide
theorem test_decode_wireD1 : decodeInput par (.request ([0x11, 0, 0x11, 0] ++ errD1)) = .ok (.wireErrorResponse errD1) := by
  decide
theorem test_decode_wire11 : decodeInput par (.request ([0x11, 0, 0x14, 0] ++ s0f)) = .ok (.wireReadRequest s0f) := by
  decide
theorem test_decode_wire_other : refine (.codecDecode (framed [0x55, 0x00, 0xBD, 0x16])) =
    .wireOtherCommand (framed [0x55, 0x00, 0xBD, 0x16]) := by decide
theorem test_decode_pack : decodeRequest par [0x20, 0, 3, 1, 2, 3] = .ok (.uSerialPack [1, 2, 3]) := by decide
theorem test_decode_unpack : decodeRequest par [0x21, 0, 0x43, 0x10, 0, 0x11, 0x34, 0] =
    .ok (.uSerialUnpack ⟨0x43, 0x10, 0, 0x11, 0x34, 0⟩) := by decide
theorem test_decode_bias_add : decodeRequest par [0x22, 0, 0xCD] = .ok (.uBiasAdd 0xCD) := by decide
theorem test_decode_bias_sub : decodeRequest par [0x23, 0, 0x32] = .ok (.uBiasSub 0x32) := by decide
theorem test_decode_checksum_gen : decodeRequest par [0x24, 0, 2, 0, 0xFF, 0xFE] = .ok (.uChecksumGen [0xFF, 0xFE]) := by
  decide
theorem test_decode_checksum_verify : decodeRequest par [0x25, 0, 2, 0, 1, 2, 3] = .ok (.uChecksumVerify [1, 2] 3) := by
  decide
theorem test_decode_prop_by_name : decodeRequest par [0x26, 0, 6, 0x65, 0x6C, 0x65, 0x63, 0x55, 0x61] =
    .ok (.uPropByName elecUa) := by decide
theorem test_decode_prop_by_code : decodeRequest par [0x27, 0, 2, 1, 1, 0] = .ok (.uPropByCode ⟨2, 1, 1, 0⟩) := by decide
theorem test_decode_pair : decodeRequest par [0x28, 0, 0x43] = .ok (.uPairValue 0x43) := by decide
theorem test_decode_bcd : decodeRequest par [0x29, 0, 2, 0x50, 0x23] = .ok (.uBcdValue [0x50, 0x23]) := by decide
theorem test_decode_scale : decodeRequest par [0x2A, 0, 2, 0xE8, 3, 6, 0x65, 0x6C, 0x65, 0x63, 0x55, 0x61] =
    .ok (.uScale [0xE8, 3] elecUa) := by decide
/-- L2.5: a unit request ignores `INST`. -/
theorem test_decode_hex2 : decodeRequest par [0x2B, 0x7F, 0x0B] = .ok (.uHex2 0x0B) := by decide
theorem test_decode_reserved : decodeRequest par [0x2C, 0, 0] = .ok (.reservedOp 0x2C [0, 0]) := by decide

/-- L2.5: malformed requests. -/
theorem test_malformed : decodeRequest par [0x01, 0, 0x0E, 1, 0x16, 0, 0, 0, 0] = .error .badLength ∧
    decodeRequest par [0x02, 0, 1, 0, 0xAA, 0xBB] = .error .badLength ∧ decodeRequest par [0x05, 0, 0] = .error .badLength ∧
    decodeRequest par [0x02] = .error .badLength ∧
    decodeRequest { par with chunkMax := 1 } [0x02, 0, 2, 0, 1, 2] = .error .chunkTooLong := by decide

/-- Words of spec/opcode_table.json, from the state after reset. -/
theorem test_table_words : decodeTableWord 16 0x0004 = some (.asmIdleFire 0) ∧
    decodeTableWord 8 0x80 = some (.reservedOp 0x80 []) ∧ decodeTableWord 8 0x22 = some (.uBiasAdd 0) ∧
    decodeTableWord 8 0xD1 = some (.wireErrorResponse (bareFrame 0xD1)) := by decide

theorem test_table_word_step : resp (step (State.reset.withFetchWord 8 0x22)) = some ⟨.ok, .byte 0x33⟩ := by decide

/-! ## One step each, from the vectors -/

/-- A6. -/
theorem test_configure : inst0 (exec (.asmConfigure 0 ⟨false, true, true, true⟩ [0x16] 0 0) fresh) =
    some (run cfg16 [] false 0) := by decide
/-- A1: the sub-code, and what it leaves of a running instance. -/
theorem test_configure_refused :
    resp (exec (.asmConfigure 0 ⟨false, true, true, true⟩ [] 0 0) (block0 cfg16 [1] true 5)) =
      some ⟨.configError, .configError .emptyBoundary⟩ ∧
    inst0 (exec (.asmConfigure 0 ⟨false, true, true, true⟩ [] 0 0) (block0 cfg16 [1] true 5)) = some Instance.reset := by
  decide
/-- B5: a match that spans two chunks. -/
theorem test_push_boundary :
    inst0 (exec (.asmPush 0 [0x0A, 0x42]) (block0 ⟨[0x0D, 0x0A], true, 65535, 3000⟩ [0x41, 0x0D] true 7)) =
      some ⟨.running, some ⟨[0x0D, 0x0A], true, 65535, 3000⟩, [], true, 0, [[0x41, 0x0D, 0x0A]]⟩ := by decide
/-- C2: the cap is tested before the boundary. -/
theorem test_push_cap :
    inst0 (exec (.asmPush 0 [1, 0x16, 3, 4, 5]) (block0 ⟨[0x16], true, 4, 3000⟩ [] false 0)) =
      some ⟨.running, some ⟨[0x16], true, 4, 3000⟩, [], true, 0, [[1, 0x16, 3, 4]]⟩ := by decide
/-- D4: saturation beyond 32 bits. -/
theorem test_tick_saturates :
    inst0 (exec (.asmTick 0 4000000000) (block0 ⟨[0x16], true, 65535, 100⟩ [1] true 100)) =
      some (run ⟨[0x16], true, 65535, 100⟩ [1] true 100) := by decide
/-- D1, last tick. -/
theorem test_tick_advances :
    inst0 (exec (.asmTick 0 1000) (block0 cfg16 [0x68, 0x43] true 2500)) = some (run cfg16 [0x68, 0x43] true 3000) := by
  decide
/-- D1, the event. -/
theorem test_idle_fire : inst0 (exec (.asmIdleFire 0) (block0 cfg16 [0x68, 0x43] true 3000)) =
    some ⟨.running, some cfg16, [], false, 3000, [[0x68, 0x43]]⟩ := by decide
/-- B6: an empty buffer only disarms. -/
theorem test_idle_fire_empty : inst0 (exec (.asmIdleFire 0) (block0 cfg16 [] true 3000)) =
    some (run cfg16 [] false 3000) := by decide
/-- A7. -/
theorem test_end : inst0 (exec (.asmEnd 0) (block0 cfg16 [0x68, 0x43, 0x10] true 0)) =
    some ⟨.closed, some cfg16, [], false, 0, [[0x68, 0x43, 0x10]]⟩ := by decide
/-- A10. -/
theorem test_destroy : inst0 (exec (.asmDestroy 0) (block0 cfg16 [0x68] true 0)) =
    some ⟨.destroyed, some cfg16, [], false, 0, []⟩ := by decide
/-- A5. -/
theorem test_destroy_unconfigured : resp (exec (.asmDestroy 0) fresh) = some ⟨.stateError, .none⟩ := by decide
/-- L1.1. -/
theorem test_encode : resp (exec (.codecEncode digits10 0x11 elecUa) fresh) = some ⟨.ok, .bytes s0f⟩ := by decide
/-- L2.3: the serial step runs before the lookup. -/
theorem test_encode_fails : exec (.codecEncode [1, 10] 0x11 [0x6E]) fresh =
    .next { fresh with diag := [⟨.invalidDigit⟩], responses := [⟨.encError .invalidDigit, .bytes []⟩] } := rfl
/-- L1.2. -/
theorem test_decode_ok : resp (exec (.codecDecode ok91) fresh) =
    some ⟨.ok, .decoded ⟨.ok, none, sn, [0x39, 0x31], true, elecUa, .num 100⟩⟩ := by decide
/-- L2.4 V35: the checksum is checked before the fields. -/
theorem test_decode_v35 :
    resp (exec (.codecDecode (framed [0x91, 6, 0x33, 0x34, 0x34, 0x35, 0x33, 0x68, 0x6A, 0x16])) fresh) =
      some ⟨.ok, .decoded (structuralResult .serialField)⟩ := by decide
/-- L2.4 D1. -/
theorem test_wire_error : resp (exec (.wireErrorResponse errD1) fresh) =
    some ⟨.ok, .decoded ⟨.errorResponse, none, sn, [0x64, 0x31], false, Str.errCode, .text [0x30, 0x31]⟩⟩ := by decide
/-- L2.4 OKB1. -/
theorem test_wire_more : resp (exec (.wireReadResponseMore okB1) fresh) =
    some ⟨.ok, .decoded ⟨.ok, none, sn, [0x62, 0x31], true, elecUa, .num 100⟩⟩ := by decide
/-- L2.4 NOMATCH. -/
theorem test_wire_nomatch :
    resp (exec (.wireReadResponse (framed [0x91, 4, 0x33, 0x34, 0x34, 0x36, 0xCE, 0x16])) fresh) =
      some ⟨.ok, .decoded ⟨.unknownProperty, none, sn, [0x39, 0x31], false, [], .num 0⟩⟩ := by decide
/-- L2.4 UNK. -/
theorem test_wire_request : resp (exec (.wireReadRequest s0f) fresh) =
    some ⟨.ok, .decoded ⟨.unknownCommand, none, sn, [0x31, 0x31], false, Str.errCode, .text [0x2D, 0x31]⟩⟩ := by decide
theorem test_pack : resp (exec (.uSerialPack digits10) fresh) = some ⟨.ok, .bytes [0x43, 0x10, 0, 0x11, 0x34, 0]⟩ := by
  decide
theorem test_unpack : resp (exec (.uSerialUnpack ⟨0x2B, 0, 0, 0, 0, 0⟩) fresh) = some ⟨.ok, .str [0x32, 0x62]⟩ := by decide
theorem test_bias : resp (exec (.uBiasAdd 0xFF) fresh) = some ⟨.ok, .byte 0x32⟩ ∧
    resp (exec (.uBiasSub 0x00) fresh) = some ⟨.ok, .byte 0xCD⟩ := by decide
theorem test_checksum : resp (exec (.uChecksumGen (slice s0f 4 18)) fresh) = some ⟨.ok, .byte 0x4D⟩ ∧
    resp (exec (.uChecksumVerify (slice s0f 4 18) 0x4E) fresh) = some ⟨.ok, .bit false⟩ := by decide
theorem test_prop_by_name : resp (exec (.uPropByName elecUa) fresh) = some ⟨.ok, .bytes [2, 1, 1, 0]⟩ ∧
    resp (exec (.uPropByName [0x45, 0x6C, 0x65, 0x63, 0x55, 0x61]) fresh) = some ⟨.encError .unknownProperty, .none⟩ := by
  decide
theorem test_prop_by_code : resp (exec (.uPropByCode ⟨2, 1, 1, 0⟩) fresh) =
      some ⟨.ok, .lookup (some (elecUa, mkRat 1 10))⟩ ∧
    resp (exec (.uPropByCode ⟨0, 1, 1, 2⟩) fresh) = some ⟨.ok, .lookup none⟩ := by decide
theorem test_pair : resp (exec (.uPairValue 0x99) fresh) = some ⟨.ok, .nat 99⟩ := by decide
theorem test_bcd : resp (exec (.uBcdValue [0x50, 0x23]) fresh) = some ⟨.ok, .nat 2350⟩ := by decide
theorem test_scale : resp (exec (.uScale [3] elecUa) fresh) = some ⟨.ok, .rat (mkRat 3 10)⟩ := by decide
theorem test_hex2 : resp (exec (.uHex2 0xB1) fresh) = some ⟨.ok, .str [0x62, 0x31]⟩ := by decide
theorem test_reserved : exec (.reservedOp 0x07 [0]) fresh =
    .next { fresh with responses := [⟨.reservedOp, .none⟩] } := rfl

/-! ## A state and operands that meet the hypotheses of every statement that has any -/

/-- Positions from the three searches. -/
theorem positions_of {f : Bytes} {start div stop : Nat} (h1 : first f divider = some start)
    (h2 : last f divider = some div) (h3 : first f terminator = some stop) (h : start < div) :
    Claims.Positions f start div stop := by
  rw [first_eq_some_iff] at h1 h3
  rw [last_eq_some_iff] at h2
  exact ⟨h, h2.1, h3.1, h1.2.1, h1.2.2, h2.2.1, h2.2.2, h3.2.1, h3.2.2⟩

/-- No occurrence, from the search. -/
theorem not_occurs_of {s pat : Bytes} (h : find s pat = none) : ∀ p, ¬ Claims.OccursAt s pat p := by
  have := find_spec s pat
  rw [h] at this
  exact this

/-- The least occurrence, from the search. -/
theorem first_at_of {s pat : Bytes} {p : Nat} (h : find s pat = some p) : Claims.FirstAt s pat p := by
  have := find_spec s pat
  rw [h] at this
  exact this

theorem table_legal : TableLegal [PropEntry.elecUa] := by decide

theorem instance_reset_inv : Instance.reset.Inv par := by simp [Instance.Inv, Instance.reset]

/-- A block whose instance 0 holds `68 43` with its timer pending, and the given inputs. -/
def pending (inputs : List PortInput) : State :=
  { block0 cfg16 [0x68, 0x43] true 3000 with inputs := inputs }

theorem pending_inv (inputs : List PortInput) : (pending inputs).Inv := by
  refine ⟨(by decide : par.Legal), table_legal, rfl, ?_⟩
  intro x hx
  simp only [pending, block0, block, List.mem_cons, List.not_mem_nil, or_false] at hx
  rcases hx with rfl | rfl | rfl | rfl
  · refine ⟨⟨by decide, (by decide : cfg16.Legal par), by decide, ?_⟩, by simp [run]⟩
    exact ⟨by decide, by decide⟩
  all_goals exact instance_reset_inv

theorem witness_DecodeEncodeRoundTrip : (Instr.asmPush 3 [0x16]).wellFormed par = true ∧
    (Instr.wireErrorResponse errD1).wellFormed par = true ∧ (Instr.codecDecode s0f).wellFormed par = true ∧
    (Instr.reservedOp 0x04 [0]).wellFormed par = true ∧ (Instr.asmIdleFire 0).wellFormed par = true := by decide

theorem witness_ReservedCodesRefused :
    (∀ op ∈ ([0x00, 0x04, 0x07, 0x0F, 0x12, 0x1F, 0x2C, 0xFF] : List Byte), Claims.Reserved op) ∧
    (block [] [.request [0x04, 0x00]]).inputs = .request (0x04 :: [0x00]) :: [] := by
  refine ⟨?_, rfl⟩
  unfold Claims.Reserved
  decide

/-- One malformed request for each way of R60, and a good one. -/
theorem witness_MalformedRequestsRefused :
    (block [] [.request [0x05, 0x04]]).inputs = .request (0x05 :: [0x04]) :: [] ∧
    (∀ op ∈ ([0x01, 0x02, 0x05, 0x11] : List Byte), ¬ Claims.Reserved op) ∧
    Claims.MalformedRequest par [0x05, 0x00, 0x00] ∧
    Claims.MalformedRequest par [0x01, 0, 0x10, 0, 0, 0, 0, 0, 0, 0, 0, 0] ∧
    Claims.MalformedRequest par [0x05, 0x04] ∧
    Claims.MalformedRequest ⟨255, 65535, 3000, 1, 20, 4⟩ [0x02, 0, 2, 0, 1, 2] ∧
    Claims.MalformedRequest ⟨255, 65535, 3000, 1, 1, 4⟩ [0x11, 0, 2, 0, 1, 2] ∧
    ¬ Claims.MalformedRequest par [0x05, 0x03] := by
  refine ⟨rfl, ?_, ?_, ?_, ?_, ?_, ?_, ?_⟩
  · unfold Claims.Reserved; decide
  all_goals unfold Claims.MalformedRequest; decide

theorem witness_StepRunsDecodedInstruction :
    (block [] [.request [0x22, 0, 1]]).inputs = .request [0x22, 0, 1] :: [] ∧
    decodeInput par (.request [0x22, 0, 1]) = .ok (.uBiasAdd 1) ∧
    decodeInput par (.request []) = .error .badLength := by decide

theorem witness_IdleStepFiresPendingTimer :
    fresh.inputs = [] ∧ (pending []).inputs = [] ∧ (pending []).insts[0]? = some (run cfg16 [0x68, 0x43] true 3000) ∧
    timerPending (run cfg16 [0x68, 0x43] true 3000) = true ∧ timerPending Instance.reset = false := by decide

/-- A step of each kind: a request, a timer event, the idle step. -/
theorem witness_step : step (pending [.request [0x22, 0, 1]]) =
      .next { pending [] with responses := [⟨.ok, .byte 0x34⟩] } ∧
    step (pending [.timer 0]) = .next
      { block [⟨.running, some cfg16, [], false, 3000, [[0x68, 0x43]]⟩, Instance.reset, Instance.reset, Instance.reset] []
        with inputs := [] } ∧
    step fresh = .next fresh := ⟨rfl, rfl, rfl⟩

theorem witness_StepKeepsInvariant : (pending [.timer 0]).Inv := pending_inv _

theorem witness_StepNeverStops : (pending [.timer 0]).Inv ∧ (pending [.timer 0]).ScheduleOk ∧
    (pending [.request [0x04]]).ScheduleOk ∧ (pending []).ScheduleOk :=
  ⟨pending_inv _, rfl, trivial, trivial⟩

/-- Each of the three emitting instructions, on a state that meets the invariant, changes `OUT`. -/
theorem witness_OneFramePerInstruction : (pending []).Inv ∧
    inst0 (exec (.asmPush 0 [0x16]) (pending [])) =
      some ⟨.running, some cfg16, [], true, 0, [[0x68, 0x43, 0x16]]⟩ ∧
    inst0 (exec (.asmIdleFire 0) (pending [])) = some ⟨.running, some cfg16, [], false, 3000, [[0x68, 0x43]]⟩ ∧
    inst0 (exec (.asmEnd 0) (pending [])) = some ⟨.closed, some cfg16, [], false, 3000, [[0x68, 0x43]]⟩ :=
  ⟨pending_inv _, by decide, by decide, by decide⟩

/-- OtherInstancesUntouched, OnlyConfigureWritesConfiguration. -/
theorem witness_frames : exec (.uPairValue 0x10) fresh = .next { fresh with responses := [⟨.ok, .nat 10⟩] } ∧
    Claims.addressed (.uPairValue 0x10) ≠ some 0 ∧ Claims.addressed (.asmPush 0 [1]) ≠ some 1 ∧
    inst0 (exec (.asmPush 0 [1]) (block0 cfg16 [] false 0)) = some (run cfg16 [1] true 0) ∧
    fresh.insts[1]? = some Instance.reset := ⟨rfl, by decide, by decide, by decide, rfl⟩

theorem witness_OnlyFailedEncodeWritesDiag : exec (.codecEncode [1, 10] 0x11 [0x6E]) fresh =
    .next { fresh with diag := [⟨.invalidDigit⟩], responses := [⟨.encError .invalidDigit, .bytes []⟩] } ∧
    ([⟨.invalidDigit⟩] : List DiagRecord) ≠ fresh.diag := ⟨rfl, by decide⟩

theorem witness_CodecDependsOnTableAlone : Claims.addressed (.codecDecode s0f) = none ∧ fresh.prop = (pending []).prop := by
  decide

/-- The legal clause at the edges of R7's ranges, and each of the four refusals. -/
theorem witness_ConfigureStartsOrRefuses :
    fresh.insts[(0 : Byte).toNat]? = some Instance.reset ∧
    (1 ≤ ([0x16] : Bytes).length ∧ ([0x16] : Bytes).length ≤ par.boundaryMax ∧ 1 ≤ (1 : U32).toNat ∧
      (0xFFFFFFFF : U32).toNat ≤ par.maxBufferLimit ∧ (0xFFFFFFFF : U32).toNat ≤ par.idleLimit) ∧
    ([] : Bytes) = [] ∧ { par with boundaryMax := 1 }.boundaryMax < ([1, 2] : Bytes).length ∧
    ((0 : U32) = 0 ∨ par.maxBufferLimit < (0 : U32).toNat) ∧
    { par with maxBufferLimit := 65535 }.maxBufferLimit < (65536 : U32).toNat ∧
    { par with idleLimit := 3000 }.idleLimit < (3001 : U32).toNat := by decide

theorem runs_block0 (c : AsmConfig) (buf : Bytes) (armed : Bool) (el : U32) :
    Claims.Runs (block0 c buf armed el) 0 (run c buf armed el) c := ⟨rfl, rfl, rfl⟩

/-- Exactly at the cap (C3), and the boundary among the bytes (C2). -/
theorem witness_PushAtCapCutsThere :
    Claims.Runs (block0 ⟨[0x16], true, 4, 3000⟩ [] false 0) 0 (run ⟨[0x16], true, 4, 3000⟩ [] false 0)
      ⟨[0x16], true, 4, 3000⟩ ∧ 1 ≤ (4 : U32).toNat ∧ (4 : U32).toNat ≤ (([] : Bytes) ++ [1, 2, 3, 4]).length ∧
    (4 : U32).toNat ≤ (([] : Bytes) ++ [1, 0x16, 3, 4, 5]).length :=
  ⟨runs_block0 _ _ _ _, by decide, by decide, by decide⟩

/-- One byte below the cap; the least match of an overlapping boundary (B4); an empty prefix (B2). -/
theorem witness_PushAtBoundaryCutsThere :
    Claims.Runs (block0 ⟨[0xAA, 0xAA], true, 4, 3000⟩ [0xAA] true 0) 0
      (run ⟨[0xAA, 0xAA], true, 4, 3000⟩ [0xAA] true 0) ⟨[0xAA, 0xAA], true, 4, 3000⟩ ∧
    (([0xAA] : Bytes) ++ [0xAA, 0xAA]).length < (4 : U32).toNat ∧
    Claims.FirstAt (([0xAA] : Bytes) ++ [0xAA, 0xAA]) [0xAA, 0xAA] 0 ∧
    Claims.boundaryFrame ⟨[0x16], false, 65535, 3000⟩ [0x16, 0xAA, 0xBB] 0 = [] :=
  ⟨runs_block0 _ _ _ _, by decide, first_at_of rfl, rfl⟩

/-- An empty chunk, and a partial match. -/
theorem witness_PushAccumulates :
    Claims.Runs (block0 cfg16 [0x68] true 2999) 0 (run cfg16 [0x68] true 2999) cfg16 ∧
    (([0x68] : Bytes) ++ []).length < cfg16.maxBuf.toNat ∧
    (∀ p, ¬ Claims.OccursAt (([0x68] : Bytes) ++ []) cfg16.boundary p) ∧
    (∀ p, ¬ Claims.OccursAt (([0x41] : Bytes) ++ [0x0D]) [0x0D, 0x0A] p) :=
  ⟨runs_block0 _ _ _ _, by decide, not_occurs_of rfl, not_occurs_of rfl⟩

/-- An instance in each of the other three states. -/
theorem witness_WrongLifeRefused :
    fresh.insts[(0 : Byte).toNat]? = some Instance.reset ∧ Instance.reset.life = .unconfigured ∧
    (⟨.destroyed, some cfg16, [], false, 0, []⟩ : Instance).life = .destroyed ∧
    (⟨.closed, some cfg16, [], false, 0, []⟩ : Instance).life ≠ .running := by decide

theorem witness_TickCountsWhileArmed :
    (block0 cfg16 [1] true 2500).insts[(0 : Byte).toNat]? = some (run cfg16 [1] true 2500) ∧
    (run cfg16 [1] true 2500).life = .running ∧ (run cfg16 [1] true 2500).cfg = some cfg16 ∧
    (run cfg16 [1] true 2500).timerArmed = true ∧ (run cfg16 [] false 0).timerArmed = false ∧
    Instance.reset.life ≠ .running := by decide

/-- Exactly at the interval. -/
theorem witness_IdleFireFlushes :
    Claims.Runs (block0 cfg16 [0x68] true 3000) 0 (run cfg16 [0x68] true 3000) cfg16 ∧
    (run cfg16 [0x68] true 3000).timerArmed = true ∧
    cfg16.idle.toNat ≤ (run cfg16 [0x68] true 3000).idleElapsed.toNat ∧
    exec (.asmIdleFire 0) (block0 cfg16 [] true 3000) = .next (block0 cfg16 [] false 3000) :=
  ⟨runs_block0 _ _ _ _, rfl, by decide, rfl⟩

/-- EndFlushesAndCloses, DestroyDiscards: an instance of each kind. -/
theorem witness_lifecycle :
    (block0 cfg16 [1] true 0).insts[(0 : Byte).toNat]? = some (run cfg16 [1] true 0) ∧
    (run cfg16 [1] true 0).life = .running ∧ fresh.insts[(0 : Byte).toNat]? = some Instance.reset ∧
    Instance.reset.life = .unconfigured ∧
    resp (exec (.asmEnd 0) (block [⟨.destroyed, some cfg16, [], false, 0, []⟩] [])) = some ⟨.stateError, .none⟩ := by
  decide

/-- Two chunks that split the boundary (B5), and the first chunk of a stream. -/
theorem witness_FragmentationInvariance :
    Claims.Runs (block0 ⟨[0x0D, 0x0A], true, 65535, 3000⟩ [] false 0) 0
      (run ⟨[0x0D, 0x0A], true, 65535, 3000⟩ [] false 0) ⟨[0x0D, 0x0A], true, 65535, 3000⟩ ∧
    (∀ j, j ≤ ([[0x41, 0x0D]] : List Bytes).length →
      ∀ q, ¬ Claims.OccursAt (([[0x41, 0x0D]] : List Bytes).take j).flatten [0x0D, 0x0A] q) ∧
    Claims.FirstAt (([[0x41, 0x0D]] : List Bytes).flatten ++ [0x0A, 0x42]) [0x0D, 0x0A] 1 ∧
    (([[0x41, 0x0D]] : List Bytes).flatten ++ [0x0A, 0x42]).length < (65535 : U32).toNat := by
  refine ⟨runs_block0 _ _ _ _, ?_, first_at_of rfl, by decide⟩
  intro j hj
  match j, hj with
  | 0, _ => exact not_occurs_of rfl
  | 1, _ => exact not_occurs_of rfl

theorem witness_IdleFlushAfterInterval :
    Claims.Runs (block0 cfg16 [0x68, 0x43] true 0) 0 (run cfg16 [0x68, 0x43] true 0) cfg16 ∧
    (run cfg16 [0x68, 0x43] true 0).buf ≠ [] ∧ cfg16.idle.toNat ≤ (([2500, 500] : List U32).map BitVec.toNat).sum :=
  ⟨runs_block0 _ _ _ _, by decide, by decide⟩

/-- An enabled event, and chunks that accumulate, cut at the boundary and cut at the cap. -/
theorem witness_TimerAndPushEitherOrder :
    Claims.Runs (block0 ⟨[0x16], true, 3, 3000⟩ [0x68] true 3000) 0 (run ⟨[0x16], true, 3, 3000⟩ [0x68] true 3000)
      ⟨[0x16], true, 3, 3000⟩ ∧ 1 ≤ (3 : U32).toNat ∧ 1 ≤ (3000 : U32).toNat ∧
    (3000 : U32).toNat ≤ (run ⟨[0x16], true, 3, 3000⟩ [0x68] true 3000).idleElapsed.toNat ∧
    (([0x68] : Bytes) ++ [0x43]).length < (3 : U32).toNat ∧
    (∀ p, ¬ Claims.OccursAt (([0x68] : Bytes) ++ [0x43]) [0x16] p) ∧
    (([0x68] : Bytes) ++ [0x16]).length < (3 : U32).toNat ∧ Claims.FirstAt (([0x68] : Bytes) ++ [0x16]) [0x16] 1 ∧
    (3 : U32).toNat ≤ (([0x68] : Bytes) ++ [0x43, 0x10]).length :=
  ⟨runs_block0 _ _ _ _, by decide, by decide, by decide, by decide, not_occurs_of rfl, by decide, first_at_of rfl,
    by decide⟩

/-- No digit, twelve digits, thirteen digits, a digit 10. -/
theorem witness_SerialPackPacksDigits : Claims.ValidDigits [] ∧
    Claims.ValidDigits [1, 2, 3, 4, 5, 6, 7, 8, 9, 0, 1, 2] ∧
    12 < ([1, 2, 3, 4, 5, 6, 7, 8, 9, 0, 1, 2, 3] : Bytes).length ∧ (∃ d ∈ ([1, 10] : Bytes), 9 < d.toNat) := by
  unfold Claims.ValidDigits
  decide

/-- An even and an odd number of digits, and leading zeros. -/
theorem witness_SerialRoundTrip : serialPack [0, 1] = .ok ⟨0x01, 0, 0, 0, 0, 0⟩ ∧
    serialPack [1, 2, 3] = .ok ⟨0x23, 0x01, 0, 0, 0, 0⟩ ∧ serialPack [0, 0, 1, 2] = .ok ⟨0x12, 0, 0, 0, 0, 0⟩ := by decide

/-- SerialFieldRoundTrip, BcdValueSums, BcdValueInjective. -/
theorem witness_bcd_bytes : (∀ b ∈ (⟨0x43, 0x10, 0x00, 0x11, 0x34, 0x99⟩ : Serial).toList, Claims.IsBcd b) ∧
    (∀ b ∈ ([0x00, 0x10] : Bytes), Claims.IsBcd b) ∧ ([0x00, 0x10] : Bytes).length = ([0x99, 0x99] : Bytes).length := by
  unfold Claims.IsBcd
  decide

theorem witness_ChecksumVerifyDetectsOneByte : Claims.byteSum [0xFF, 0xFF] % 256 = (0xFE : Byte).toNat ∧
    1 < ([0xFF, 0xFF] : Bytes).length ∧ byteAt [0xFF, 0xFF] 1 ≠ 0xFE := by decide

/-- PropByNameLooksUp, PropByCodeLooksUp, ScaleIsExact: a hit, and misses. -/
theorem witness_lookups : TableLegal fresh.prop ∧ PropEntry.elecUa ∈ fresh.prop ∧ PropEntry.elecUa.name = elecUa ∧
    (∀ e ∈ fresh.prop, e.name ≠ [0x6E]) ∧ PropEntry.elecUa.code = ⟨2, 1, 1, 0⟩ ∧
    (∀ e ∈ fresh.prop, e.code ≠ ⟨0, 1, 1, 2⟩) := by decide

theorem witness_PairValueWeights : Claims.IsBcd 0x99 ∧ Claims.IsBcd 0x00 ∧ ¬ Claims.IsBcd 0x9A ∧ ¬ Claims.IsBcd 0xA0 := by
  unfold Claims.IsBcd
  decide

theorem witness_EncodeBuildsRequestFrame : TableLegal fresh.prop ∧ PropEntry.elecUa ∈ fresh.prop ∧
    Claims.ValidDigits digits10 := by
  unfold Claims.ValidDigits
  decide

/-- Thirteen digits with a bad one, a bad digit with an unknown name, an unknown name. -/
theorem witness_EncodeFailuresInOrder : 12 < ([10, 2, 3, 4, 5, 6, 7, 8, 9, 0, 1, 2, 3] : Bytes).length ∧
    (([1, 10] : Bytes).length ≤ 12 ∧ ∃ d ∈ ([1, 10] : Bytes), 9 < d.toNat) ∧
    (Claims.ValidDigits [] ∧ ∀ x ∈ fresh.prop, x.name ≠ [0x6E]) := by
  unfold Claims.ValidDigits
  decide

/-- EMPTY, ONEDIV, NOTERM, ORDER and ORDER2 of L2.4. -/
theorem witness_DecodeLocates : (0x68 : Byte) ∉ ([] : Bytes) ∧ List.count 0x68 ([0xFE, 0x68, 0xAA, 0x16] : Bytes) = 1 ∧
    (2 ≤ List.count 0x68 ([0x68, 0x00, 0x68] : Bytes) ∧ (0x16 : Byte) ∉ ([0x68, 0x00, 0x68] : Bytes)) ∧
    Claims.Positions [0x16, 0xFE, 0x68, 0x00, 0x68] 2 4 0 ∧ Claims.Positions [0x68, 0x16, 0x68, 0x00, 0x00] 0 2 1 :=
  ⟨by decide, by decide, by decide, positions_of rfl rfl rfl (by decide), positions_of rfl rfl rfl (by decide)⟩

/-- FLIP13. -/
theorem witness_DecodeDetectsMismatch : Claims.Positions (s0f.set 13 0x05) 4 11 19 ∧ ¬ Claims.SumOk (s0f.set 13 0x05) 4 19 :=
  ⟨positions_of rfl rfl rfl (by decide), by unfold Claims.SumOk; decide⟩

/-- V35, SHORT, NOLEN, L3 and LBIG of L2.4. -/
theorem witness_DecodeChecksFields :
    (Claims.Positions (framed [0x91, 6, 0x33, 0x34, 0x34, 0x35, 0x33, 0x68, 0x6A, 0x16]) 4 19 21 ∧
      Claims.SumOk (framed [0x91, 6, 0x33, 0x34, 0x34, 0x35, 0x33, 0x68, 0x6A, 0x16]) 4 21) ∧
    (Claims.Positions [0xFE, 0xFE, 0xFE, 0xFE, 0x68, 1, 0, 0, 0, 0, 0, 0x68, 0xD1, 0x16] 4 11 13 ∧
      Claims.SumOk [0xFE, 0xFE, 0xFE, 0xFE, 0x68, 1, 0, 0, 0, 0, 0, 0x68, 0xD1, 0x16] 4 13) ∧
    (Claims.Positions (framed [0x91, 0xF9, 0x16]) 4 11 14 ∧ Claims.SumOk (framed [0x91, 0xF9, 0x16]) 4 14) ∧
    (Claims.Positions (framed [0x91, 3, 0x33, 0x34, 0x34, 0x97, 0x16]) 4 11 18 ∧
      Claims.SumOk (framed [0x91, 3, 0x33, 0x34, 0x34, 0x97, 0x16]) 4 18) ∧
    (Claims.Positions (framed [0x91, 7, 0x33, 0x34, 0x34, 0x35, 0x33, 0x43, 0x46, 0x16]) 4 11 21 ∧
      Claims.SumOk (framed [0x91, 7, 0x33, 0x34, 0x34, 0x35, 0x33, 0x43, 0x46, 0x16]) 4 21) := by
  refine ⟨⟨positions_of rfl rfl rfl (by decide), ?_⟩, ⟨positions_of rfl rfl rfl (by decide), ?_⟩,
    ⟨positions_of rfl rfl rfl (by decide), ?_⟩, ⟨positions_of rfl rfl rfl (by decide), ?_⟩,
    ⟨positions_of rfl rfl rfl (by decide), ?_⟩⟩ <;> unfold Claims.SumOk <;> decide

/-- A frame that reaches the dispatch, from the searches. -/
theorem dispatched_of {f : Bytes} {start stop : Nat} (h1 : first f divider = some start)
    (h2 : last f divider = some (start + 7)) (h3 : first f terminator = some stop)
    (h4 : Claims.SumOk f start stop) (h5 : start + 9 < stop) : Claims.Dispatched f start (start + 7) stop :=
  ⟨positions_of h1 h2 h3 (by omega), by omega, h4, rfl, h5⟩

/-- OK91 and OKB1, and OKL4, whose length byte is the least. -/
theorem witness_DecodeReadResponse : Claims.Dispatched ok91 4 11 21 ∧ Claims.Dispatched okB1 4 11 21 ∧
    Claims.Dispatched (framed [0x91, 4, 0x33, 0x34, 0x34, 0x35, 0xCD, 0x16]) 4 11 19 ∧
    byteAt ok91 12 = 0x91 ∧ byteAt okB1 12 = 0xB1 ∧ Claims.ResponseOf ok91 11 21 6 PropEntry.elecUa ∧
    Claims.ResponseOf okB1 11 21 6 PropEntry.elecUa ∧
    Claims.ResponseOf (framed [0x91, 4, 0x33, 0x34, 0x34, 0x35, 0xCD, 0x16]) 11 19 4 PropEntry.elecUa := by
  refine ⟨dispatched_of rfl rfl rfl ?_ (by decide), dispatched_of rfl rfl rfl ?_ (by decide),
    dispatched_of rfl rfl rfl ?_ (by decide), by decide, by decide, ?_, ?_, ?_⟩
  · unfold Claims.SumOk; decide
  · unfold Claims.SumOk; decide
  · unfold Claims.SumOk; decide
  all_goals unfold Claims.ResponseOf; decide

/-- NOMATCH. -/
theorem witness_DecodeUnknownProperty :
    Claims.Dispatched (framed [0x91, 4, 0x33, 0x34, 0x34, 0x36, 0xCE, 0x16]) 4 11 19 ∧
    (∀ e ∈ fresh.prop, slice (framed [0x91, 4, 0x33, 0x34, 0x34, 0x36, 0xCE, 0x16]) 14 18 ≠
      [e.code.b3 + 0x33, e.code.b2 + 0x33, e.code.b1 + 0x33, e.code.b0 + 0x33]) :=
  ⟨dispatched_of rfl rfl rfl (by unfold Claims.SumOk; decide) (by decide), by decide⟩

theorem witness_DecodeErrorResponse : Claims.Dispatched errD1 4 11 16 ∧ byteAt errD1 12 = 0xD1 :=
  ⟨dispatched_of rfl rfl rfl (by unfold Claims.SumOk; decide) (by decide), by decide⟩

/-- The read request 11, and another command, 55. -/
theorem witness_DecodeUnknownCommand : Claims.Dispatched s0f 4 11 19 ∧ byteAt s0f 12 = 0x11 ∧
    Claims.Dispatched (framed [0x55, 0x00, 0xBD, 0x16]) 4 11 15 ∧ byteAt (framed [0x55, 0x00, 0xBD, 0x16]) 12 = 0x55 :=
  ⟨dispatched_of rfl rfl rfl (by unfold Claims.SumOk; decide) (by decide), by decide,
    dispatched_of rfl rfl rfl (by unfold Claims.SumOk; decide) (by decide), by decide⟩

/-- Each clause off its row's command: no length byte, a length below 4, one beyond the checksum, and a code no entry has,
of command 55; an entry's code of command 11; the rows of 11, D1 and the others on a frame of 91. -/
theorem witness_WireRowsOffTheirCommand :
    Claims.Dispatched (framed [0x55, 0xBD, 0x16]) 4 11 14 ∧
    Claims.Dispatched (framed [0x55, 0x00, 0xBD, 0x16]) 4 11 15 ∧
    Claims.Dispatched (framed [0x55, 7, 0x33, 0x34, 0x34, 0x35, 0x33, 0x43, 0x0A, 0x16]) 4 11 21 ∧
    (Claims.Dispatched (framed [0x55, 4, 0x33, 0x34, 0x34, 0x36, 0x92, 0x16]) 4 11 19 ∧
      ∀ e ∈ fresh.prop, ¬ Claims.ResponseOf (framed [0x55, 4, 0x33, 0x34, 0x34, 0x36, 0x92, 0x16]) 11 19 4 e) ∧
    (TableLegal fresh.prop ∧ Claims.Dispatched s0f 4 11 19 ∧ Claims.ResponseOf s0f 11 19 4 PropEntry.elecUa) ∧
    Claims.Dispatched ok91 4 11 21 := by
  refine ⟨dispatched_of rfl rfl rfl ?_ (by decide), dispatched_of rfl rfl rfl ?_ (by decide),
    dispatched_of rfl rfl rfl ?_ (by decide), ⟨dispatched_of rfl rfl rfl ?_ (by decide), ?_⟩,
    ⟨by decide, dispatched_of rfl rfl rfl ?_ (by decide), ?_⟩, dispatched_of rfl rfl rfl ?_ (by decide)⟩
  case _ => unfold Claims.SumOk; decide
  case _ => unfold Claims.SumOk; decide
  case _ => unfold Claims.SumOk; decide
  case _ => unfold Claims.SumOk; decide
  case _ => unfold Claims.ResponseOf; decide
  case _ => unfold Claims.SumOk; decide
  case _ => unfold Claims.ResponseOf; decide
  case _ => unfold Claims.SumOk; decide

/-- Inputs that decode to each wire row. -/
theorem witness_WireRowsDecoded :
    decodeInput Claims.vectorParams (.request (decodeFrameRequest s0f)) = .ok (.wireReadRequest s0f) ∧
    decodeInput Claims.vectorParams (.request (decodeFrameRequest ok91)) = .ok (.wireReadResponse ok91) ∧
    decodeInput Claims.vectorParams (.request (decodeFrameRequest okB1)) = .ok (.wireReadResponseMore okB1) ∧
    decodeInput Claims.vectorParams (.request (decodeFrameRequest errD1)) = .ok (.wireErrorResponse errD1) ∧
    decodeInput Claims.vectorParams (.request (decodeFrameRequest (framed [0x55, 0x00, 0xBD, 0x16]))) =
      .ok (.wireOtherCommand (framed [0x55, 0x00, 0xBD, 0x16])) :=
  ⟨rfl, rfl, rfl, rfl, rfl⟩

/-- The frame an encode of "elecUa" builds. -/
def frameOf (digits : Bytes) (cmd : Byte) : Bytes :=
  match encodeFrame [PropEntry.elecUa] digits cmd elecUa with
  | .ok f => f
  | .error _ => []

/-- L1.4: frames of commands 11, 91, B1 and D1. -/
theorem witness_EncodedFramesDecode :
    (exec (.codecEncode digits10 0x11 elecUa) fresh = .next (Claims.answered fresh .ok (.bytes s0f)) ∧
      ∀ b ∈ slice s0f 5 11 ++ slice s0f 12 19, b ≠ 0x68 ∧ b ≠ 0x16) ∧
    (exec (.codecEncode digits10 0x91 elecUa) fresh =
        .next (Claims.answered fresh .ok (.bytes (framed [0x91, 4, 0x33, 0x34, 0x34, 0x35, 0xCD, 0x16]))) ∧
      ∀ b ∈ slice (frameOf digits10 0x91) 5 11 ++ slice (frameOf digits10 0x91) 12 19, b ≠ 0x68 ∧ b ≠ 0x16) ∧
    (exec (.codecEncode digits10 0xB1 elecUa) fresh =
        .next (Claims.answered fresh .ok (.bytes (framed [0xB1, 4, 0x33, 0x34, 0x34, 0x35, 0xED, 0x16]))) ∧
      ∀ b ∈ slice (frameOf digits10 0xB1) 5 11 ++ slice (frameOf digits10 0xB1) 12 19, b ≠ 0x68 ∧ b ≠ 0x16) ∧
    (exec (.codecEncode digits10 0xD1 elecUa) fresh =
        .next (Claims.answered fresh .ok (.bytes (framed [0xD1, 4, 0x33, 0x34, 0x34, 0x35, 0x0D, 0x16]))) ∧
      ∀ b ∈ slice (frameOf digits10 0xD1) 5 11 ++ slice (frameOf digits10 0xD1) 12 19, b ≠ 0x68 ∧ b ≠ 0x16) :=
  ⟨⟨rfl, by decide⟩, ⟨rfl, by decide⟩, ⟨rfl, by decide⟩, ⟨rfl, by decide⟩⟩

/-- L1.4: an odd number of digits, and leading zeros. -/
theorem witness_EncodedFramesDecode_digits :
    (exec (.codecEncode [1, 2, 3] 0x11 elecUa) fresh = .next (Claims.answered fresh .ok (.bytes (frameOf [1, 2, 3] 0x11))) ∧
      ∀ b ∈ slice (frameOf [1, 2, 3] 0x11) 5 11 ++ slice (frameOf [1, 2, 3] 0x11) 12 19, b ≠ 0x68 ∧ b ≠ 0x16) ∧
    (exec (.codecEncode [0, 0, 1, 2] 0x91 elecUa) fresh =
        .next (Claims.answered fresh .ok (.bytes (frameOf [0, 0, 1, 2] 0x91))) ∧
      ∀ b ∈ slice (frameOf [0, 0, 1, 2] 0x91) 5 11 ++ slice (frameOf [0, 0, 1, 2] 0x91) 12 19, b ≠ 0x68 ∧ b ≠ 0x16) :=
  ⟨⟨rfl, by decide⟩, ⟨rfl, by decide⟩⟩

/-- S0F, and for each clause an index and a value; for the two clauses that rest on the sum, one that does not agree. -/
theorem witness_SingleByteChanges : Claims.Positions s0f 4 11 (s0f.length - 1) ∧ List.count 0x68 s0f = 2 ∧
    Claims.SumOk s0f 4 (s0f.length - 1) ∧
    (3 < 4 ∧ byteAt s0f 3 ≠ 0x00) ∧ (0 < 4 ∧ byteAt s0f 0 ≠ 0x16) ∧
    (0 < 4 ∧ byteAt s0f 0 ≠ 0x68 ∧ ¬ Claims.SumOk (s0f.set 0 0x68) 0 (s0f.length - 1)) ∧
    (byteAt s0f 4 ≠ 0x00 ∧ byteAt s0f 11 ≠ 0x16) ∧
    (5 < s0f.length - 1 ∧ byteAt s0f 5 ≠ 0x68 ∧ 18 < s0f.length - 1 ∧ byteAt s0f 18 ≠ 0x68) ∧
    (5 = 4 + 1 ∧ 5 ≠ 11 ∧ byteAt s0f 5 ≠ 0x16) ∧
    (4 + 1 < 6 ∧ 6 ≠ 11 ∧ 6 < s0f.length - 1 ∧ byteAt s0f 6 ≠ 0x16 ∧ ¬ Claims.SumOk (s0f.set 6 0x16) 4 6) ∧
    (19 = s0f.length - 1 ∧ byteAt s0f 19 ≠ 0x00) := by
  refine ⟨positions_of rfl rfl rfl (by decide), by decide, ?_⟩
  unfold Claims.SumOk
  decide

end Sys2Proof.Tests
end

/-! PROOFS. The scope of the block (spec/00_scope.md): what no step changes (R7, R26), and what a Codec or unit answer
depends on (R4, R28). -/

namespace Sys2Proof.Machine

section WithResponses
variable (s : State) (r : Option Response)

@[simp] theorem withResponses_prop : (withResponses s r).prop = s.prop := by cases r <;> rfl
@[simp] theorem withResponses_params : (withResponses s r).params = s.params := by cases r <;> rfl
@[simp] theorem withResponses_insts : (withResponses s r).insts = s.insts := by cases r <;> rfl

end WithResponses

/-- `target` of the inversion lemmas is `Claims.addressed` of the statements (R33, R55). -/
theorem target_eq_addressed (i : Instr) : target i = Claims.addressed i := by
  cases i <;> rfl

/-- No instruction writes the Property Table or the limits; an Assembler instruction sets one entry of `insts` in place
and a Codec instruction writes the streams only (R26, R28, R33). -/
theorem exec_keeps_table_limits_count {i : Instr} {s t : State} (h : exec i s = .next t) :
    t.prop = s.prop ∧ t.params = s.params ∧ t.insts.length = s.insts.length := by
  cases hk : target i with
  | none =>
    obtain ⟨r, d, -, he⟩ := exec_codec s hk
    obtain rfl := Host.Outcome.next.inj (he.symm.trans h)
    exact ⟨rfl, rfl, rfl⟩
  | some k =>
    obtain ⟨r, -, rfl | ⟨x, y, -, -, rfl⟩⟩ := exec_assembler_cases hk h
    · simp
    · simp

/-- Settles O13, by the four things a step can do: only running an instruction is not immediate. -/
theorem tableAndLimitsFixed : Obligations.TableAndLimitsFixed := by
  intro s t h
  rcases step_cases h with ⟨q, rest, e, -, -, rfl⟩ | ⟨x, rest, i, -, -, he⟩ | ⟨inst, -, -, he⟩ | ⟨-, -, rfl⟩
  · simp
  · simpa using exec_keeps_table_limits_count he
  · exact exec_keeps_table_limits_count he
  · exact ⟨rfl, rfl, rfl⟩

/-- Settles O19: both runs answer `codecAnswer` of the one Property Table the states share. -/
theorem codecDependsOnTableAlone : Obligations.CodecDependsOnTableAlone := by
  intro i s1 s2 hi hprop
  obtain ⟨r, d, hans, hexec⟩ := exec_codec s1 ((target_eq_addressed i).trans hi)
  exact ⟨r, d, hexec, exec_of_codecAnswer (hprop ▸ hans)⟩

end Sys2Proof.Machine

/-! PROOFS. The state (spec/10_state.md): its reset values (R32, R141), the invariant of R16 to R26 that every step
keeps, that no step stops on it, and what an instruction leaves alone (R24, R25, R28, R33, R34). -/

namespace Sys2Proof.Machine

/-! ## Fields of a state with a response, and of a pushed instance -/

section WithResponsesStreams
variable (s : State) (r : Option Response)

@[simp] theorem withResponses_diag : (withResponses s r).diag = s.diag := by cases r <;> rfl

theorem withResponses_responses_prefix : s.responses <+: (withResponses s r).responses := by
  cases r with
  | none => exact List.prefix_rfl
  | some r => exact List.prefix_append _ _

end WithResponsesStreams

section PushedFields
variable (x : Instance) (c : AsmConfig) (chunk : Bytes)

@[simp] theorem pushed_life : (pushed x c chunk).life = x.life := by simp [pushed]
@[simp] theorem pushed_cfg : (pushed x c chunk).cfg = x.cfg := by simp [pushed]
@[simp] theorem pushed_buf : (pushed x c chunk).buf = (cutBuffer c (x.buf ++ chunk)).rest := rfl
@[simp] theorem pushed_timerArmed : (pushed x c chunk).timerArmed = true := rfl
@[simp] theorem pushed_idleElapsed : (pushed x c chunk).idleElapsed = 0 := rfl
@[simp] theorem pushed_out :
    (pushed x c chunk).out = (x.emitNonempty (cutBuffer c (x.buf ++ chunk)).frame).out := rfl

end PushedFields

/-- An emission only appends (R24). -/
theorem Instance.out_prefix_emitNonempty (x : Instance) (f : Bytes) : x.out <+: (x.emitNonempty f).out := by
  rw [Instance.emitNonempty_out]
  split
  · exact List.prefix_rfl
  · exact List.prefix_append _ _

/-! ## What an instruction does to the instances and the streams -/

/-- An instruction leaves the list of instances as it is or sets in it the one instance it addresses. -/
theorem exec_insts_cases {i : Instr} {s t : State} (h : exec i s = .next t) :
    t.insts = s.insts ∨ ∃ k x y, target i = some k ∧ s.insts[k]? = some x ∧ InstStep s.params x i y ∧
      t.insts = s.insts.set k y := by
  cases hk : target i with
  | none =>
    obtain ⟨r, d, -, he⟩ := exec_codec s hk
    obtain rfl := Host.Outcome.next.inj (he.symm.trans h)
    exact .inl rfl
  | some k =>
    obtain ⟨r, -, rfl | ⟨x, y, hx, hxy, rfl⟩⟩ := exec_assembler_cases hk h
    · exact .inl (withResponses_insts s r)
    · exact .inr ⟨k, x, y, rfl, hx, hxy, withResponses_insts _ r⟩

/-- An instance after an instruction is the one before it, or the addressed one after a step of its own. -/
theorem exec_instance_cases {i : Instr} {s t : State} {k : Nat} {x y : Instance} (h : exec i s = .next t)
    (hx : s.insts[k]? = some x) (hy : t.insts[k]? = some y) : y = x ∨ InstStep s.params x i y := by
  rcases exec_insts_cases h with ht | ⟨j, a, b, -, ha, hab, ht⟩
  · rw [ht, hx] at hy
    exact .inl (Option.some.inj hy).symm
  · rw [ht] at hy
    rcases eq_or_ne j k with rfl | hjk
    · rw [List.getElem?_set_self (List.getElem?_eq_some_iff.1 ha).1] at hy
      obtain rfl := Option.some.inj hy
      obtain rfl := Option.some.inj (ha.symm.trans hx)
      exact .inr hab
    · rw [List.getElem?_set_ne hjk, hx] at hy
      exact .inl (Option.some.inj hy).symm

/-- A step of an instance takes no frame of its `OUT` back (R24). -/
theorem InstStep.out_prefix {p : Params} {x y : Instance} {i : Instr} (h : InstStep p x i y) : x.out <+: y.out := by
  cases h with
  | push => exact x.out_prefix_emitNonempty _
  | fire => exact x.out_prefix_emitNonempty _
  | finish => exact x.out_prefix_emitNonempty _
  | refuse | configure | tick | destroy => exact List.prefix_rfl

/-- A step of an instance that is no `ASM_CONFIGURE` leaves its configuration registers alone (R34). -/
theorem InstStep.cfg_eq {p : Params} {x y : Instance} {i : Instr} (h : InstStep p x i y)
    (hi : ∀ inst fl bd mb idl, i ≠ .asmConfigure inst fl bd mb idl) : y.cfg = x.cfg := by
  cases h with
  | refuse | configure => exact absurd rfl (hi _ _ _ _ _)
  | push => exact pushed_cfg _ _ _
  | fire | finish => exact Instance.emitNonempty_cfg _ _
  | tick | destroy => rfl

/-- No instruction takes a response or a `DIAG` record back (R25, R45). -/
theorem exec_diag_responses_prefix {i : Instr} {s t : State} (h : exec i s = .next t) :
    s.diag <+: t.diag ∧ s.responses <+: t.responses := by
  cases hk : target i with
  | none =>
    obtain ⟨r, d, -, he⟩ := exec_codec s hk
    obtain rfl := Host.Outcome.next.inj (he.symm.trans h)
    exact ⟨List.prefix_append _ _, List.prefix_append _ _⟩
  | some k =>
    obtain ⟨r, -, rfl | ⟨x, y, -, -, rfl⟩⟩ := exec_assembler_cases hk h
    · exact ⟨by simp, withResponses_responses_prefix _ _⟩
    · exact ⟨by simp, withResponses_responses_prefix (s.setInst k y) _⟩

/-- No instruction takes a frame back, in any instance (R24). -/
theorem exec_out_prefix {i : Instr} {s t : State} {k : Nat} {x y : Instance} (h : exec i s = .next t)
    (hx : s.insts[k]? = some x) (hy : t.insts[k]? = some y) : x.out <+: y.out := by
  rcases exec_instance_cases h hx hy with rfl | hxy
  · exact List.prefix_rfl
  · exact hxy.out_prefix

/-- Where the instances are left alone, so is every `OUT`. -/
theorem out_prefix_of_insts_eq {s t : State} {k : Nat} {x y : Instance} (h : t.insts = s.insts)
    (hx : s.insts[k]? = some x) (hy : t.insts[k]? = some y) : x.out <+: y.out := by
  rw [h, hx] at hy
  rw [Option.some.inj hy]

/-- Settles O14: a step that runs no instruction leaves the instances alone and appends one response at most. -/
theorem streamsOnlyGrow : Obligations.StreamsOnlyGrow := by
  intro s t h
  rcases step_cases h with ⟨q, rest, e, -, -, rfl⟩ | ⟨x, rest, i, -, -, he⟩ | ⟨inst, -, -, he⟩ | ⟨-, -, rfl⟩
  · exact ⟨List.prefix_rfl, List.prefix_append _ _, fun k x y => out_prefix_of_insts_eq rfl⟩
  · obtain ⟨hdiag, hresp⟩ := exec_diag_responses_prefix he
    exact ⟨hdiag, hresp, fun k x y => exec_out_prefix (s := s.takeInput rest) he⟩
  · obtain ⟨hdiag, hresp⟩ := exec_diag_responses_prefix he
    exact ⟨hdiag, hresp, fun k x y => exec_out_prefix he⟩
  · exact ⟨List.prefix_rfl, List.prefix_rfl, fun k x y => out_prefix_of_insts_eq rfl⟩

/-- Settles O16: the one entry an instruction sets in the list of instances is the addressed one. -/
theorem otherInstancesUntouched : Obligations.OtherInstancesUntouched := by
  intro s t i k h hk
  rcases exec_insts_cases h with ht | ⟨j, x, y, hj, -, -, ht⟩
  · rw [ht]
  · have hjk : j ≠ k := by
      rintro rfl
      exact hk (target_eq_addressed i ▸ hj)
    rw [ht, List.getElem?_set_ne hjk]

/-- Settles O17, by the step the instance has made. -/
theorem onlyConfigureWritesConfiguration : Obligations.OnlyConfigureWritesConfiguration := by
  intro s t i h hi k x y hx hy
  rcases exec_instance_cases h hx hy with rfl | hxy
  · rfl
  · exact hxy.cfg_eq hi

/-- Of the instructions that address no instance, only a failing `CODEC_ENCODE` answers with a record (R131). -/
theorem codecAnswer_records {table : List PropEntry} {i : Instr} {r : Response} {d : List DiagRecord}
    (h : codecAnswer table i = some (r, d)) (hd : d ≠ []) :
    ∃ digits cmd name e, i = .codecEncode digits cmd name ∧ d = [⟨e⟩] ∧ r = ⟨.encError e, .bytes []⟩ := by
  cases i
  case codecEncode digits cmd name =>
    simp only [codecAnswer] at h
    split at h <;> cases h
    · exact absurd rfl hd
    · exact ⟨digits, cmd, name, _, rfl, rfl, rfl⟩
  all_goals
    simp only [codecAnswer] at h
    (try split at h) <;> cases h <;> exact absurd rfl hd

/-- Settles O18: the Assembler leaves `DIAG` alone, and of the others `codecAnswer` says who records. -/
theorem onlyFailedEncodeWritesDiag : Obligations.OnlyFailedEncodeWritesDiag := by
  intro s t i h hne
  cases hk : target i with
  | none =>
    obtain ⟨r, d, hans, he⟩ := exec_codec s hk
    obtain rfl := Host.Outcome.next.inj (he.symm.trans h)
    obtain ⟨digits, cmd, name, e, rfl, rfl, rfl⟩ := codecAnswer_records hans (fun hd => hne (by simp [hd]))
    exact ⟨digits, cmd, name, e, rfl, rfl, rfl⟩
  | some k =>
    obtain ⟨r, -, rfl | ⟨x, y, -, -, rfl⟩⟩ := exec_assembler_cases hk h
    · exact absurd (withResponses_diag s r) hne
    · exact absurd (withResponses_diag (s.setInst k y) r) hne

/-! ## The invariant of one instance, by its life -/

/-- The bound the invariant puts on the frames of `OUT` (R24, R76). -/
def FramesLegal (p : Params) (out : List Bytes) : Prop := ∀ f ∈ out, 1 ≤ f.length ∧ f.length ≤ p.maxBufferLimit

/-- The invariant of an instance whose configuration registers hold no value (R32). -/
theorem Instance.inv_of_cfg_none {p : Params} {x : Instance} (hc : x.cfg = none) :
    x.Inv p ↔ (x.life = .unconfigured ∧ x.buf = [] ∧ x.timerArmed = false ∧ x.idleElapsed = 0) ∧
      FramesLegal p x.out := by
  simp only [Instance.Inv, hc, FramesLegal]

/-- The invariant of an instance with the configuration `c`. -/
theorem Instance.inv_of_cfg_some {p : Params} {x : Instance} {c : AsmConfig} (hc : x.cfg = some c) :
    x.Inv p ↔ (x.life ≠ .unconfigured ∧ c.Legal p ∧ x.idleElapsed.toNat ≤ c.idle.toNat ∧ LifeInv x c) ∧
      FramesLegal p x.out := by
  simp only [Instance.Inv, hc, FramesLegal]

theorem lifeInv_of_running {x : Instance} {c : AsmConfig} (hl : x.life = .running) :
    LifeInv x c ↔ x.buf.length < c.maxBuf.toNat ∧ find x.buf c.boundary = none := by
  simp only [LifeInv, hl]

theorem lifeInv_of_stopped {x : Instance} {c : AsmConfig} (hl : x.life ≠ .running) :
    LifeInv x c ↔ x.buf = [] ∧ x.timerArmed = false := by
  cases h : x.life with
  | running => exact absurd h hl
  | unconfigured | closed | destroyed => simp only [LifeInv, h]

/-- An instance that meets the invariant and is not `Unconfigured` has a configuration (R16, R125). -/
theorem Instance.Inv.configured {p : Params} {x : Instance} (h : x.Inv p) (hl : x.life ≠ .unconfigured) :
    ∃ c, x.cfg = some c ∧ c.Legal p ∧ x.idleElapsed.toNat ≤ c.idle.toNat ∧ LifeInv x c := by
  cases hc : x.cfg with
  | none =>
    obtain ⟨⟨hunc, -⟩, -⟩ := (inv_of_cfg_none hc).1 h
    exact absurd hunc hl
  | some c =>
    obtain ⟨⟨-, hleg, hidle, hlife⟩, -⟩ := (inv_of_cfg_some hc).1 h
    exact ⟨c, rfl, hleg, hidle, hlife⟩

theorem Instance.Inv.framesLegal {p : Params} {x : Instance} (h : x.Inv p) : FramesLegal p x.out := h.2

/-- Emitting a frame within the largest cap, or suppressing an empty one, keeps the bound of `OUT` (R76). -/
theorem FramesLegal.emitNonempty {p : Params} {x : Instance} {f : Bytes} (h : FramesLegal p x.out)
    (hf : f.length ≤ p.maxBufferLimit) : FramesLegal p (x.emitNonempty f).out := by
  rw [Instance.emitNonempty_out]
  split
  · exact h
  · rename_i hne
    intro g hg
    rcases List.mem_append.1 hg with hg | hg
    · exact h g hg
    · obtain rfl := List.mem_singleton.1 hg
      exact ⟨List.length_pos_iff.2 hne, hf⟩

/-- The empty buffer is below every legal cap and holds no legal boundary (R17, R19, R21). -/
theorem AsmConfig.Legal.empty_buffer {p : Params} {c : AsmConfig} (h : c.Legal p) :
    ([] : Bytes).length < c.maxBuf.toNat ∧ find [] c.boundary = none := by
  obtain ⟨hbd, -, hcap, -⟩ := h
  exact ⟨hcap, if_neg (List.length_pos_iff.1 hbd)⟩

/-- A push emits no more than the cap (R68, R76). -/
theorem cutBuffer_frame_length (c : AsmConfig) (comb : Bytes) : (cutBuffer c comb).frame.length ≤ c.maxBuf.toNat := by
  unfold cutBuffer
  split
  · exact List.length_take_le _ _
  · split
    · simp only [List.length_take]
      omega
    · exact Nat.zero_le _

/-- What a push leaves in `BUF` is below the cap and free of the boundary (R21). -/
theorem cutBuffer_rest_inv {p : Params} {c : AsmConfig} (h : c.Legal p) (comb : Bytes) :
    (cutBuffer c comb).rest.length < c.maxBuf.toNat ∧ find (cutBuffer c comb).rest c.boundary = none := by
  unfold cutBuffer
  split
  · exact h.empty_buffer
  · split
    · exact h.empty_buffer
    · exact ⟨Nat.lt_of_not_le ‹_›, ‹_›⟩

/-- Emitting what a running instance has buffered keeps the bound of `OUT` (R72, R73). -/
theorem Instance.Inv.framesLegal_flushed {p : Params} {x : Instance} (h : x.Inv p) (hl : x.life = .running) :
    FramesLegal p (x.emitNonempty x.buf).out := by
  obtain ⟨c, -, ⟨-, -, -, hcap, -⟩, -, hlife⟩ := h.configured (by simp [hl])
  have hbuf : x.buf.length < c.maxBuf.toNat := ((lifeInv_of_running hl).1 hlife).1
  exact h.framesLegal.emitNonempty (hbuf.le.trans hcap)

/-- Emptying the buffer and disarming the timer of a configured instance keeps its invariant, whether it runs on or
stops (R72, R73, R74). -/
theorem Instance.Inv.emptied {p : Params} {x y : Instance} (h : x.Inv p) (hl : x.life ≠ .unconfigured)
    (hcfg : y.cfg = x.cfg) (hidle : y.idleElapsed = x.idleElapsed) (hlife : y.life ≠ .unconfigured)
    (hbuf : y.buf = []) (harm : y.timerArmed = false) (hout : FramesLegal p y.out) : y.Inv p := by
  obtain ⟨c, hc, hleg, hle, -⟩ := h.configured hl
  refine (inv_of_cfg_some (hcfg.trans hc)).2 ⟨⟨hlife, hleg, hidle ▸ hle, ?_⟩, hout⟩
  by_cases hrun : y.life = .running
  · rw [lifeInv_of_running hrun, hbuf]
    exact hleg.empty_buffer
  · exact (lifeInv_of_stopped hrun).2 ⟨hbuf, harm⟩

/-- A step of an instance keeps its invariant (R16 to R24). -/
theorem InstStep.keeps_inv {p : Params} {x y : Instance} {i : Instr} (h : InstStep p x i y) (hx : x.Inv p) :
    y.Inv p := by
  have hout := hx.framesLegal
  cases h with
  | refuse => exact (Instance.inv_of_cfg_none rfl).2 ⟨⟨rfl, rfl, rfl, rfl⟩, hout⟩
  | configure hleg =>
    refine (Instance.inv_of_cfg_some rfl).2 ⟨⟨by simp, hleg, Nat.zero_le _, ?_⟩, hout⟩
    exact (lifeInv_of_running rfl).2 hleg.empty_buffer
  | push hl hc =>
    obtain ⟨⟨-, hleg, -⟩, -⟩ := (Instance.inv_of_cfg_some hc).1 hx
    have ⟨_, _, _, hcap, _⟩ := hleg
    refine (Instance.inv_of_cfg_some ((pushed_cfg _ _ _).trans hc)).2
      ⟨⟨by simp [hl], hleg, Nat.zero_le _, ?_⟩, hout.emitNonempty ((cutBuffer_frame_length _ _).trans hcap)⟩
    exact (lifeInv_of_running ((pushed_life _ _ _).trans hl)).2 (cutBuffer_rest_inv hleg _)
  | @tick _ ms c _ hc _ =>
    obtain ⟨⟨hlife, hleg, -, hbuf⟩, -⟩ := (Instance.inv_of_cfg_some hc).1 hx
    have hsat : (elapse x.idleElapsed ms c.idle).toNat ≤ c.idle.toNat := by
      rw [elapse_toNat]
      exact Nat.min_le_right _ _
    refine (Instance.inv_of_cfg_some (c := c) ?_).2 ⟨⟨hlife, hleg, hsat, hbuf⟩, hout⟩
    exact hc
  | fire hp =>
    obtain ⟨hl, -⟩ := (timerPending_iff x).1 hp
    exact hx.emptied (by simp [hl]) (by simp) (by simp) (by simp [hl]) rfl rfl (hx.framesLegal_flushed hl)
  | finish hl =>
    exact hx.emptied (by simp [hl]) (by simp) (by simp) (by simp) rfl rfl (hx.framesLegal_flushed hl)
  | destroy hl =>
    have hne : x.life ≠ .unconfigured := fun h => by simp [h] at hl
    exact hx.emptied hne rfl rfl (by simp) rfl rfl hout

/-! ## The invariant of the block -/

/-- An instruction keeps the invariant: table, limits and number of instances stay, and the one instance that changes
makes a step of its own. -/
theorem exec_keeps_inv {i : Instr} {s t : State} (h : exec i s = .next t) (hs : s.Inv) : t.Inv := by
  obtain ⟨hparams, htable, hcount, hinsts⟩ := hs
  obtain ⟨hp, hq, hn⟩ := exec_keeps_table_limits_count h
  refine ⟨hq ▸ hparams, hp ▸ htable, by rw [hn, hq, hcount], fun z hz => ?_⟩
  rw [hq]
  rcases exec_insts_cases h with ht | ⟨k, x, y, -, hx, hxy, ht⟩
  · exact hinsts z (ht ▸ hz)
  · rcases List.mem_or_eq_of_mem_set (ht ▸ hz) with hz | rfl
    · exact hinsts z hz
    · exact hxy.keeps_inv (hinsts x (List.mem_of_getElem? hx))

/-- Settles O11: taking an input and answering touch nothing the invariant speaks of, and running keeps it. -/
theorem stepKeepsInvariant : Obligations.StepKeepsInvariant := by
  intro s t hs h
  rcases step_cases h with ⟨q, rest, e, -, -, rfl⟩ | ⟨x, rest, i, -, -, he⟩ | ⟨inst, -, -, he⟩ | ⟨-, -, rfl⟩
  · exact hs
  · exact exec_keeps_inv he hs
  · exact exec_keeps_inv he hs
  · exact hs

/-! ## No step stops on the invariant -/

/-- An operation on an instance answers when it does on every instance there is. -/
theorem withInstance_answers {s : State} {run : Instance → Result} (inst : Byte)
    (h : ∀ x ∈ s.insts, ∃ t, run x = .next t) : ∃ t, withInstance s inst run = .next t := by
  cases hx : s.insts[inst.toNat]? with
  | none => exact ⟨_, by rw [withInstance, hx]; rfl⟩
  | some x =>
    rw [withInstance_some hx]
    exact h x (List.mem_of_getElem? hx)

/-- An operation that needs a life answers when it does in that life. -/
theorem requireLife_answers {s : State} {x : Instance} {lives : List Life} {run : Result}
    (h : x.life ∈ lives → ∃ t, run = .next t) : ∃ t, requireLife s x lives run = .next t := by
  unfold requireLife
  split
  · exact h ‹_›
  · exact ⟨_, rfl⟩

/-- A running instance of the invariant has the configuration an operation reads (R32). -/
theorem withConfig_answers {p : Params} {x : Instance} {run : AsmConfig → Result} (hx : x.Inv p)
    (hl : x.life ∈ [Life.running]) (h : ∀ c, ∃ t, run c = .next t) : ∃ t, withConfig x run = .next t := by
  have hrun : x.life = .running := List.mem_singleton.1 hl
  obtain ⟨c, hc, -⟩ := hx.configured (by simp [hrun])
  rw [withConfig, hc]
  exact h c

/-- On a state of the invariant every instruction but the timer event answers (R32, R123, R134). -/
theorem exec_answers {i : Instr} {s : State} (hs : s.Inv) (hi : ∀ inst, i ≠ .asmIdleFire inst) :
    ∃ t, exec i s = .next t := by
  obtain ⟨-, -, -, hinsts⟩ := hs
  cases hk : target i with
  | none =>
    obtain ⟨r, d, -, he⟩ := exec_codec s hk
    exact ⟨_, he⟩
  | some k =>
    cases i <;> simp only [target, reduceCtorEq] at hk
    case asmConfigure inst fl bd mb idl =>
      refine withInstance_answers inst fun x _ => ?_
      dsimp only
      split <;> exact ⟨_, rfl⟩
    case asmPush inst chunk =>
      exact withInstance_answers inst fun x hx => requireLife_answers fun hl =>
        withConfig_answers (hinsts x hx) hl fun c => ⟨_, rfl⟩
    case asmTick inst ms =>
      refine withInstance_answers inst fun x hx => requireLife_answers fun hl => ?_
      split
      · exact withConfig_answers (hinsts x hx) hl fun c => ⟨_, rfl⟩
      · exact ⟨_, rfl⟩
    case asmIdleFire inst => exact absurd rfl (hi inst)
    case asmEnd inst => exact withInstance_answers inst fun x _ => requireLife_answers fun _ => ⟨_, rfl⟩
    case asmDestroy inst => exact withInstance_answers inst fun x _ => requireLife_answers fun _ => ⟨_, rfl⟩

/-- The timer event happens where it is enabled (R72). -/
theorem exec_idleFire_answers {s : State} {inst : Byte} {x : Instance} (hx : s.insts[inst.toNat]? = some x)
    (hp : timerPending x = true) : ∃ t, exec (.asmIdleFire inst) s = .next t :=
  ⟨_, by simp only [exec, execAsmIdleFire, hx, hp, if_true]; rfl⟩

/-- Settles O12: a timer event is enabled, by the schedule or because it is pending, and a request is never one. -/
theorem stepNeverStops : Obligations.StepNeverStops := by
  intro s hs hsched
  unfold step
  split
  next hin =>
    unfold runIdle
    split
    next inst hpend =>
      obtain ⟨x, hx, hp, -⟩ := pendingTimer_spec hpend
      exact exec_idleFire_answers hx hp
    next => exact ⟨s, rfl⟩
  next input rest hin =>
    cases input with
    | timer inst =>
      simp only [State.ScheduleOk, hin] at hsched
      split at hsched
      next => exact hsched.elim
      next x hx => exact exec_idleFire_answers (s := s.takeInput rest) hx hsched
    | request q =>
      unfold runInput
      split
      next i hdec =>
        refine exec_answers (s := s.takeInput rest) hs fun inst hi => ?_
        exact decodeInput_request_ne_event _ q inst (hi ▸ hdec)
      next => exact ⟨_, rfl⟩

/-! ## The state after reset -/

/-- Settles O9: every instance is a copy of the one R32 describes. -/
theorem resetValues : Obligations.ResetValues := by
  refine ⟨List.length_replicate, fun x hx => ?_, rfl, List.mem_cons_self⟩
  obtain rfl : x = Instance.reset := List.eq_of_mem_replicate hx
  exact ⟨rfl, fun _ => rfl, rfl, rfl, rfl, rfl⟩

/-- Every choice of the raw OPEN limits is brought into the ranges of R7. -/
theorem config_params_legal : Config.params.Legal := by
  simp only [Params.Legal, Config.params]
  omega

/-- What is kept of a list of entries is legal and has other names and codes than the entries seen before it. -/
theorem keepLegal_mem {seen l : List PropEntry} {e : PropEntry} (h : e ∈ keepLegal seen l) :
    e.Legal ∧ ∀ x ∈ seen, x.name ≠ e.name ∧ x.code ≠ e.code := by
  induction l generalizing seen with
  | nil => cases h
  | cons a rest ih =>
    rw [keepLegal] at h
    split at h
    · rename_i ha
      rcases List.mem_cons.1 h with rfl | h
      · exact ha
      · obtain ⟨hleg, hseen⟩ := ih h
        exact ⟨hleg, fun x hx => hseen x (List.mem_cons_of_mem a hx)⟩
    · exact ih h

/-- The entries kept have pairwise distinct names and codes (R26). -/
theorem keepLegal_pairwise (seen l : List PropEntry) :
    (keepLegal seen l).Pairwise fun a b => a.name ≠ b.name ∧ a.code ≠ b.code := by
  induction l generalizing seen with
  | nil => exact .nil
  | cons a rest ih =>
    rw [keepLegal]
    split
    · exact .cons (fun b hb => (keepLegal_mem hb).2 a List.mem_cons_self) (ih _)
    · exact ih _

/-- The block's Property Table is legal, whatever the OPEN entries are (R26, R27). -/
theorem config_propertyTable_legal : TableLegal Config.propertyTable := by
  refine ⟨List.mem_cons_self, fun e he => ?_, .cons (fun b hb => ?_) (keepLegal_pairwise _ _)⟩
  · rcases List.mem_cons.1 he with rfl | he
    · decide
    · exact (keepLegal_mem he).1
  · exact (keepLegal_mem hb).2 PropEntry.elecUa List.mem_cons_self

/-- Settles O10: the limits and the table are legal, and an instance after reset holds no configuration. -/
theorem resetMeetsInvariant : Obligations.ResetMeetsInvariant := by
  refine ⟨config_params_legal, config_propertyTable_legal, List.length_replicate, fun x hx => ?_⟩
  obtain rfl : x = Instance.reset := List.eq_of_mem_replicate hx
  exact (Instance.inv_of_cfg_none rfl).2 ⟨⟨rfl, rfl, rfl, rfl⟩, fun _ hf => absurd hf List.not_mem_nil⟩

end Sys2Proof.Machine

/-! PROOFS. The order of inputs (spec/20_memory.md R44, R45): a step on a state with something to arrive runs what the
first input decodes to. -/

namespace Sys2Proof.Machine

/-- A request of no bytes has no code to decode (R60): log 12. -/
theorem decodeInput_request_nil (p : Params) : decodeInput p (.request []) = .error .badLength := rfl

section FirstInput
variable {s : State} {x : PortInput} {more : List PortInput}

/-- With something to arrive, a step is the run of the first input on the state it has been taken from (R45). -/
theorem step_of_inputs_cons (h : s.inputs = x :: more) : step s = runInput x (s.takeInput more) := by
  rw [step, h]

/-- An input that decodes to an instruction runs it (R55). -/
theorem runInput_of_decoded {i : Instr} (h : decodeInput s.params x = .ok i) : runInput x s = exec i s := by
  rw [runInput, h]

/-- An input that decodes to none is answered, whatever the reason (R60). -/
theorem runInput_of_malformed {e : Malformed} (h : decodeInput s.params x = .error e) :
    runInput x s = .next (s.answer .malformedRequest .none) := by
  rw [runInput, h, raiseOutcome]

end FirstInput

/-- Settles O6: taking the input leaves the limits it is decoded by, so `runInput` says both outcomes. -/
theorem stepRunsDecodedInstruction : Obligations.StepRunsDecodedInstruction := by
  intro s x more hin
  refine ⟨fun i hdec => ?_, fun e hdec => ?_, fun hx => ?_⟩
  · exact (step_of_inputs_cons hin).trans (runInput_of_decoded (s := s.takeInput more) hdec)
  · exact (step_of_inputs_cons hin).trans (runInput_of_malformed (s := s.takeInput more) hdec)
  · exact ⟨_, hx ▸ decodeInput_request_nil s.params⟩

end Sys2Proof.Machine

/-! PROOFS. The encoding of requests (spec/30_encoding.md): reading the operands of a layout back (R57, R61), the codes
and lengths the port accepts (R56, R58, R60), one response per request (R55), the frame an encode builds (R51), and the
wire rows a decode is refined to (R54, R112). -/

namespace Sys2Proof.Machine

/-! ## Reading operands from a layout -/

section ReadOperands
variable (b : Byte) (s t : Bytes) (o k n : Nat)

@[simp] theorem byteAt_append_length : byteAt (s ++ t) s.length = byteAt t 0 := by
  simpa using byteAt_after s t 0

@[simp] theorem byteAt_append_length_add : byteAt (s ++ t) (s.length + k) = byteAt t k := by
  rw [Nat.add_comm, byteAt_after]

@[simp] theorem field_cons_succ : field (b :: s) (o + 1) n = field s o n := by simp [field, slice]

@[simp] theorem field_append_zero : field (s ++ t) 0 s.length = s := by simp [field, slice]

@[simp] theorem field_self : field s 0 s.length = s := by simp [field, slice]

@[simp] theorem field_append_length_add : field (s ++ t) (s.length + k) n = field t k n := by
  simp only [field, slice, List.drop_length_add_append, Nat.add_sub_cancel_left]

@[simp] theorem u32At_cons_succ : u32At (b :: s) (o + 1) = u32At s o := by
  simp only [u32At, Nat.add_right_comm o 1, byteAt_cons_succ]

@[simp] theorem u32At_append_length : u32At (s ++ t) s.length = u32At t 0 := by
  simp only [u32At, byteAt_append_length, byteAt_append_length_add, Nat.zero_add]

@[simp] theorem u32At_append_length_add : u32At (s ++ t) (s.length + k) = u32At t k := by
  simp only [u32At, Nat.add_assoc, byteAt_append_length_add]

/-- A `u32` operand reads back where it was laid down (R57, R61). -/
@[simp] theorem u32At_u32Bytes_append (w : U32) : u32At (u32Bytes w ++ t) 0 = w := by
  simp only [u32At, u32Bytes, List.cons_append, List.nil_append, byteAt_cons_zero, byteAt_cons_succ, Nat.zero_add]
  rw [BitVec.extractLsb'_append_extractLsb'_eq_extractLsb' (show 24 = 16 + 8 from rfl),
    BitVec.extractLsb'_append_extractLsb'_eq_extractLsb' (show 16 = 8 + 8 from rfl),
    BitVec.extractLsb'_append_extractLsb'_eq_extractLsb' (show 8 = 0 + 8 from rfl)]
  exact BitVec.extractLsb'_eq_self

@[simp] theorem u32At_u32Bytes (w : U32) : u32At (u32Bytes w) 0 = w := by
  simpa using u32At_u32Bytes_append [] w

end ReadOperands

/-- The `FLAGS` byte reads back as its four defined bits (R57). -/
theorem flagsOf_flagsByte (fl : CfgFlags) : flagsOf (flagsByte fl) = fl := by
  obtain ⟨a, b, c, d⟩ := fl
  revert a b c d; decide

/-- The encoder leaves the reserved bits of `FLAGS` 0 (R57). -/
theorem flagsReservedClear_flagsByte (fl : CfgFlags) : flagsReservedClear (flagsByte fl) = true := by
  obtain ⟨a, b, c, d⟩ := fl
  revert a b c d; decide

/-! ## Requests of a layout's own length -/

/-- A request with an accepted code and its layout's length is decoded from its operands (R60, R130). -/
theorem decodeRequest_of_layout {p : Params} {q : Bytes} (hop : isReservedOp (byteAt q 0) = false)
    (hlen : requestLength q = q.length) : decodeRequest p q = decodeOperands p q := by
  cases q with
  | nil => exact absurd hop (by decide)
  | cons op rest =>
    rw [byteAt_cons_zero] at hop
    simp only [decodeRequest, hop, hlen, ne_eq, not_true, if_false, Bool.false_eq_true]

/-- A well-formed instruction is encoded in the length its own layout needs (R57, R62). -/
theorem requestLength_encode {p : Params} {i : Instr} (h : i.wellFormed p = true) :
    requestLength (encode i) = (encode i).length := by
  cases i with
  | asmConfigure => exact Laws.EncodeLength.asmConfigure _ _ _ _ _ p h
  | asmPush => exact Laws.EncodeLength.asmPush _ _ p h
  | asmTick => rfl
  | asmIdleFire => rfl
  | asmEnd => rfl
  | asmDestroy => rfl
  | codecEncode => exact Laws.EncodeLength.codecEncode _ _ _ p h
  | codecDecode => exact Laws.EncodeLength.codecDecode _ p h
  | uSerialPack => exact Laws.EncodeLength.uSerialPack _ p h
  | uSerialUnpack => rfl
  | uBiasAdd => rfl
  | uBiasSub => rfl
  | uChecksumGen => exact Laws.EncodeLength.uChecksumGen _ p h
  | uChecksumVerify => exact Laws.EncodeLength.uChecksumVerify _ _ p h
  | uPropByName => exact Laws.EncodeLength.uPropByName _ p h
  | uPropByCode => rfl
  | uPairValue => rfl
  | uBcdValue => exact Laws.EncodeLength.uBcdValue _ p h
  | uScale => exact Laws.EncodeLength.uScale _ _ p h
  | uHex2 => rfl
  | reservedOp => exact Laws.EncodeLength.reservedOp _ _ p h
  | wireReadRequest => exact Laws.EncodeLength.wireReadRequest _ p h
  | wireReadResponse => exact Laws.EncodeLength.wireReadResponse _ p h
  | wireReadResponseMore => exact Laws.EncodeLength.wireReadResponseMore _ p h
  | wireErrorResponse => exact Laws.EncodeLength.wireErrorResponse _ p h
  | wireOtherCommand => exact Laws.EncodeLength.wireOtherCommand _ p h

/-- The instruction the port reads from an instruction's request: a wire row arrives as a `CODEC_DECODE` (log 15). -/
def asRequest : Instr → Instr
  | .wireReadRequest f => .codecDecode f
  | .wireReadResponse f => .codecDecode f
  | .wireReadResponseMore f => .codecDecode f
  | .wireErrorResponse f => .codecDecode f
  | .wireOtherCommand f => .codecDecode f
  | i => i

/-- A frame request decodes to its frame (R57). -/
theorem decodeOperands_decodeFrameRequest {p : Params} {f : Bytes} (hfit : fitsU16 f = true)
    (hadm : p.admitsFrame f = true) : decodeOperands p (decodeFrameRequest f) = .ok (.codecDecode f) := by
  have hlen : f.length < 65536 := of_decide_eq_true hfit
  simp [decodeOperands, decodeFrameRequest, u16Bytes, u16At_two hlen, hadm]

/-- Whether an instruction reaches the block as a request with an accepted code (R56, R58). -/
def isAcceptedRequest : Instr → Bool
  | .asmIdleFire _ => false
  | .reservedOp _ _ => false
  | _ => true

theorem isReservedOp_encode {i : Instr} (hi : isAcceptedRequest i = true) :
    isReservedOp (byteAt (encode i) 0) = false := by
  cases i with
  | asmIdleFire | reservedOp => cases hi
  | _ => rfl

/-- The operands of a well-formed instruction read back from its request (R57). -/
theorem decodeOperands_encode {p : Params} {i : Instr} (hi : isAcceptedRequest i = true)
    (h : i.wellFormed p = true) : decodeOperands p (encode i) = .ok (asRequest i) := by
  cases i <;> simp only [Instr.wellFormed, Bool.and_eq_true] at h
  case asmIdleFire => cases hi
  case reservedOp => cases hi
  case asmConfigure inst fl bd mb idl =>
    obtain ⟨hinst, hfit⟩ := h
    have hlen := countByte_toNat (of_decide_eq_true hfit)
    simp [decodeOperands, encode, asRequest, hlen, hinst, flagsOf_flagsByte, flagsReservedClear_flagsByte,
      Nat.add_comm _ bd.length]
    exact (u32At_append_length (u32Bytes mb) _).trans (u32At_u32Bytes idl)
  case asmPush inst chunk =>
    obtain ⟨⟨hinst, hfit⟩, hadm⟩ := h
    have hlen : chunk.length < 65536 := of_decide_eq_true hfit
    simp [decodeOperands, encode, asRequest, u16Bytes, u16At_two hlen, hinst, hadm]
  case asmTick inst ms => simp [decodeOperands, encode, asRequest, h]
  case asmEnd inst => simp [decodeOperands, encode, asRequest, h]
  case asmDestroy inst => simp [decodeOperands, encode, asRequest, h]
  case codecEncode digits cmd name =>
    obtain ⟨hd, hn⟩ := h
    have hdlen := countByte_toNat (of_decide_eq_true hd)
    have hnlen := countByte_toNat (of_decide_eq_true hn)
    simp [decodeOperands, encode, asRequest, hdlen, hnlen, Nat.add_comm _ digits.length]
  case uSerialPack digits =>
    simp [decodeOperands, encode, asRequest, countByte_toNat (of_decide_eq_true h)]
  case uChecksumGen data =>
    have hlen : data.length < 65536 := of_decide_eq_true h
    simp [decodeOperands, encode, asRequest, u16Bytes, u16At_two hlen]
  case uChecksumVerify data cs =>
    have hlen : data.length < 65536 := of_decide_eq_true h
    simp [decodeOperands, encode, asRequest, u16Bytes, u16At_two hlen, Nat.add_comm _ data.length]
  case uPropByName name =>
    simp [decodeOperands, encode, asRequest, countByte_toNat (of_decide_eq_true h)]
  case uBcdValue data =>
    simp [decodeOperands, encode, asRequest, countByte_toNat (of_decide_eq_true h)]
  case uScale raw name =>
    obtain ⟨hr, hn⟩ := h
    have hrlen := countByte_toNat (of_decide_eq_true hr)
    have hnlen := countByte_toNat (of_decide_eq_true hn)
    simp [decodeOperands, encode, asRequest, hrlen, hnlen, Nat.add_comm _ raw.length]
  case codecDecode => exact decodeOperands_decodeFrameRequest h.1 h.2
  case wireReadRequest | wireReadResponse | wireReadResponseMore | wireErrorResponse | wireOtherCommand =>
    exact decodeOperands_decodeFrameRequest h.1.1 h.1.2
  all_goals rfl

/-- The request of a well-formed instruction decodes to it, a wire row's to its `CODEC_DECODE` (R56, R57). -/
theorem decodeRequest_encode {p : Params} {i : Instr} (hi : isEvent i = false) (h : i.wellFormed p = true) :
    decodeRequest p (encode i) = .ok (asRequest i) := by
  by_cases ha : isAcceptedRequest i = true
  · rw [decodeRequest_of_layout (isReservedOp_encode ha) (requestLength_encode h), decodeOperands_encode ha h]
  · cases i with
    | asmIdleFire => cases hi
    | reservedOp op rest => exact if_pos h
    | _ => exact absurd rfl ha

/-- The frame of a wire row refines to that row, and any frame refines to a wire row alone (R54, R112). -/
theorem refine_codecDecode_of_isWireRow {i : Instr} {f : Bytes} (h : isWireRow i f = true) :
    refine (.codecDecode f) = i := by
  unfold isWireRow at h
  unfold refine
  cases hc : reachedCommand f with
  | none => simp [hc] at h
  | some c => simpa [hc] using h

/-- A well-formed instruction and what the port reads from its request are refined alike (log 15). -/
theorem refine_asRequest {p : Params} {i : Instr} (h : i.wellFormed p = true) : refine (asRequest i) = refine i := by
  cases i with
  | wireReadRequest | wireReadResponse | wireReadResponseMore | wireErrorResponse | wireOtherCommand =>
    simp only [Instr.wellFormed, Bool.and_eq_true] at h
    exact refine_codecDecode_of_isWireRow h.2
  | _ => rfl

theorem refine_eq_self {i : Instr} (hi : ∀ f, i ≠ .codecDecode f) : refine i = i := by
  rcases refine_cases i with h | ⟨f, c, hf, -, -⟩
  · exact h
  · exact absurd hf (hi f)

/-- Every instruction but the timer event arrives as its request (R55). -/
theorem encodeInput_of_request {i : Instr} (hi : isEvent i = false) : encodeInput i = .request (encode i) := by
  cases i with
  | asmIdleFire => cases hi
  | _ => rfl

/-- Settles O1: the port reads `asRequest` of the instruction from its request, and refining that gives what refining
the instruction gives. -/
theorem decodeEncodeRoundTrip : Obligations.DecodeEncodeRoundTrip := by
  intro p i h
  refine ⟨?_, refine_eq_self⟩
  cases hi : isEvent i with
  | true =>
    cases i with
    | asmIdleFire => rfl
    | _ => cases hi
  | false =>
    rw [encodeInput_of_request hi, decodeInput, decodeRequest_encode hi h, ← refine_asRequest h]
    rfl

/-! ## What the port refuses and what it answers -/

/-- The codes R58 lists are the ones the port does not accept (R56). -/
theorem isReservedOp_iff (op : Byte) : isReservedOp op = true ↔ Claims.Reserved op := by
  simp only [isReservedOp, acceptedOps, Claims.Reserved, Bool.not_eq_true', List.contains_eq_mem,
    decide_eq_false_iff_not, List.mem_cons, List.not_mem_nil, or_false, not_or, ← BitVec.toNat_inj, BitVec.reduceToNat]
  have := op.isLt
  omega

/-- Settles O4: the decoder reads the reserved code before anything else, and its instruction only answers. -/
theorem reservedCodesRefused : Obligations.ReservedCodesRefused := by
  intro s op rest more hop hin
  have hdec : decodeInput s.params (.request (op :: rest)) = .ok (.reservedOp op rest) := by
    rw [decodeInput, decodeRequest, if_pos ((isReservedOp_iff op).2 hop)]
    rfl
  have hexec (t : State) : exec (.reservedOp op rest) t = .next (Claims.answered t .reservedOp .none) := rfl
  have hrun := runInput_of_decoded (s := s.takeInput more) hdec
  exact ⟨(step_of_inputs_cons hin).trans (hrun.trans (hexec _)), hexec s⟩

/-- The instance an `ASM_*` request names exists when its number is below INSTANCES (R60). -/
theorem hasInstance_iff (p : Params) (inst : Byte) : p.hasInstance inst = true ↔ inst.toNat < p.instances :=
  lessThan_iff _ _

/-- The reserved bits of `FLAGS` are 0 exactly when the byte is below 16 (R57). -/
theorem flagsReservedClear_iff (b : Byte) : flagsReservedClear b = true ↔ b.toNat < 16 := by
  have := b.isLt
  simp only [flagsReservedClear, beq_iff_eq, ← BitVec.toNat_inj, BitVec.extractLsb'_toNat, BitVec.toNat_ofNat,
    Nat.shiftRight_eq_div_pow]
  omega

theorem length_field {q : Bytes} {o n : Nat} (h : o + n ≤ q.length) : (field q o n).length = n := by
  rw [field, slice_length h, Nat.add_sub_cancel_left]

/-- A check that refuses is one that fails, or one that passes before a refusal. -/
theorem exists_error_unless {α ε : Type} {b : Bool} {e : ε} {r : Except ε α} :
    (∃ e', (if b = false then .error e else r) = .error e') ↔ b = false ∨ ∃ e', r = .error e' := by
  cases b <;> simp

/-- The operation codes whose operands the port checks (R60). -/
def checkedOps : List Byte := [0x01, 0x02, 0x03, 0x05, 0x06, 0x11]

/-- The operands of every other code are read without a check (R57, R60). -/
theorem decodeOperands_of_unchecked (p : Params) {q : Bytes} (h : byteAt q 0 ∉ checkedOps) :
    ∃ i, decodeOperands p q = .ok i := by
  have hne : ∀ c ∈ checkedOps, (byteAt q 0).toNat ≠ c.toNat := fun c hc he => h (BitVec.eq_of_toNat_eq he ▸ hc)
  simp only [checkedOps, List.forall_mem_cons] at hne
  unfold decodeOperands
  dsimp only
  split
  case h_1 heq | h_2 heq | h_3 heq | h_4 heq | h_5 heq | h_7 heq => simp [heq] at hne
  all_goals exact ⟨_, rfl⟩

/-- R60's list for a request of its layout's own length, by the checks of the decoder. -/
theorem malformedRequest_iff {p : Params} {q : Bytes} (hlen : requestLength q = q.length) :
    Claims.MalformedRequest p q ↔
      (byteAt q 0 = 0x01 ∧ flagsReservedClear (byteAt q 2) = false) ∨
      (byteAt q 0 ∈ ([0x01, 0x02, 0x03, 0x05, 0x06] : List Byte) ∧ p.hasInstance (byteAt q 1) = false) ∨
      (byteAt q 0 = 0x02 ∧ p.admitsChunk (field q 4 (u16At q 2)) = false) ∨
      (byteAt q 0 = 0x11 ∧ p.admitsFrame (field q 4 (u16At q 2)) = false) := by
  have hfield (hop : byteAt q 0 = 0x02 ∨ byteAt q 0 = 0x11) : (field q 4 (u16At q 2)).length = u16At q 2 := by
    refine length_field (le_of_eq ?_)
    rw [← hlen]
    rcases hop with h | h <;> rw [requestLength, h] <;> rfl
  have hchunk : byteAt q 0 = 0x02 → (p.admitsChunk (field q 4 (u16At q 2)) = false ↔ p.chunkMax < u16At q 2) :=
    fun h => by rw [Params.admitsChunk, hfield (.inl h), decide_eq_false_iff_not, Nat.not_le]
  have hframe : byteAt q 0 = 0x11 → (p.admitsFrame (field q 4 (u16At q 2)) = false ↔ p.decMax < u16At q 2) :=
    fun h => by rw [Params.admitsFrame, hfield (.inr h), decide_eq_false_iff_not, Nat.not_le]
  rw [Claims.MalformedRequest, and_congr_right hchunk, and_congr_right hframe, ← Bool.not_eq_true,
    flagsReservedClear_iff, ← Bool.not_eq_true, hasInstance_iff, Nat.not_lt, Nat.not_lt]
  exact or_iff_right (not_not_intro hlen)

/-- A request of its layout's own length has no operands exactly when R60 lists it. -/
theorem decodeOperands_error_iff {p : Params} {q : Bytes} (hlen : requestLength q = q.length) :
    (∃ e, decodeOperands p q = .error e) ↔ Claims.MalformedRequest p q := by
  rw [malformedRequest_iff hlen]
  by_cases h : byteAt q 0 ∈ checkedOps
  · simp only [checkedOps, List.mem_cons, List.not_mem_nil, or_false] at h
    rcases h with h | h | h | h | h | h <;> simp [decodeOperands, h, exists_error_unless]
  · obtain ⟨i, hi⟩ := decodeOperands_of_unchecked p h
    simp only [checkedOps, List.mem_cons, List.not_mem_nil, or_false] at h ⊢
    simp only [hi, reduceCtorEq, exists_false, false_iff]
    tauto

/-- A request with an accepted code decodes to no instruction exactly when R60 lists it. -/
theorem decodeRequest_error_iff {p : Params} {op : Byte} {rest : Bytes} (hop : ¬ Claims.Reserved op) :
    (∃ e, decodeRequest p (op :: rest) = .error e) ↔ Claims.MalformedRequest p (op :: rest) := by
  have hacc : isReservedOp op = false := Bool.eq_false_iff.2 fun h => hop ((isReservedOp_iff op).1 h)
  by_cases hlen : requestLength (op :: rest) = (op :: rest).length
  · rw [decodeRequest_of_layout (q := op :: rest) hacc hlen, decodeOperands_error_iff hlen]
  · exact iff_of_true ⟨.badLength, by rw [decodeRequest, hacc, if_neg Bool.false_ne_true, if_pos hlen]⟩ (.inl hlen)

/-- Settles O5: the decoder refuses exactly what R60 lists, and a refused input is answered. -/
theorem malformedRequestsRefused : Obligations.MalformedRequestsRefused := by
  intro s op rest more hin hop
  have hiff := decodeRequest_error_iff (p := s.params) (rest := rest) hop
  refine ⟨fun hmal => ?_, fun hmal => ?_⟩
  · obtain ⟨e, he⟩ := hiff.2 hmal
    have hdec : decodeInput s.params (.request (op :: rest)) = .error e := by
      rw [decodeInput, he]
      rfl
    exact (step_of_inputs_cons hin).trans (runInput_of_malformed (s := s.takeInput more) hdec)
  · cases hdec : decodeRequest s.params (op :: rest) with
    | ok i => exact ⟨i, rfl⟩
    | error e => exact absurd (hiff.1 ⟨e, hdec⟩) hmal

/-- Every instruction but the timer event gives one response (R55). -/
theorem exec_gives_response {i : Instr} {s t : State} (hi : isEvent i = false) (h : exec i s = .next t) :
    ∃ r, t.responses = s.responses ++ [r] := by
  cases hk : target i with
  | none =>
    obtain ⟨r, d, -, he⟩ := exec_codec s hk
    obtain rfl := Host.Outcome.next.inj (he.symm.trans h)
    exact ⟨r, rfl⟩
  | some k =>
    obtain ⟨r, hr, ht⟩ := exec_assembler_cases hk h
    obtain ⟨r, rfl⟩ : ∃ r', r = some r' := Option.ne_none_iff_exists'.1 fun hn => by simp [hr.1 hn] at hi
    obtain rfl | ⟨x, y, -, -, rfl⟩ := ht <;> exact ⟨r, rfl⟩

/-- Settles O8: a request that decodes is never the timer event, the one instruction that gives no response. -/
theorem oneResponsePerRequest : Obligations.OneResponsePerRequest := by
  intro s t x more hin hstep
  rw [step_of_inputs_cons hin] at hstep
  cases x with
  | timer inst =>
    obtain ⟨x, -, -, rfl⟩ := execAsmIdleFire_cases hstep
    rfl
  | request q =>
    cases hdec : decodeInput s.params (.request q) with
    | error e =>
      rw [runInput_of_malformed (s := s.takeInput more) hdec] at hstep
      obtain rfl := Host.Outcome.next.inj hstep
      exact ⟨_, rfl⟩
    | ok i =>
      rw [runInput_of_decoded (s := s.takeInput more) hdec] at hstep
      refine exec_gives_response (s := s.takeInput more) ?_ hstep
      cases i with
      | asmIdleFire inst => exact absurd hdec (decodeInput_request_ne_event _ q inst)
      | _ => rfl

/-- Settles O3, by running the decoder on each word. -/
theorem specWordsDecode : Obligations.SpecWordsDecode := by
  unfold Obligations.SpecWordsDecode
  decide

/-! ## The request frame an encode builds -/

/-- The padded digit `w` places before the last is the digit of weight `10^w` (R82). -/
theorem paddedDigit_toNat {digits : Bytes} (h : digits.length ≤ 12) {w : Nat} (hw : w < 12) :
    (paddedDigit digits (11 - w)).toNat = Claims.digitOfWeight digits w := by
  rw [paddedDigit_eq digits h _ (by omega), Claims.digitOfWeight, Nat.sub_sub_self (by omega)]
  split <;> rfl

/-- The pair of the digits of weights `10^(2k+1)` and `10^(2k)` (R82). -/
theorem packPair_paddedDigit {digits : Bytes} (h : Claims.ValidDigits digits) {k : Nat} (hk : k < 6) :
    (packPair (paddedDigit digits (10 - 2 * k)) (paddedDigit digits (11 - 2 * k))).toNat =
      16 * Claims.digitOfWeight digits (2 * k + 1) + Claims.digitOfWeight digits (2 * k) := by
  obtain ⟨hlen, hdig⟩ := h
  rw [packPair_toNat (paddedDigit_le hdig _) (paddedDigit_le hdig _), paddedDigit_toNat hlen (by omega),
    show 10 - 2 * k = 11 - (2 * k + 1) by omega, paddedDigit_toNat hlen (by omega)]

/-- Valid digits pack to six bytes of two digits each (R82). -/
theorem serialPack_of_valid {digits : Bytes} (h : Claims.ValidDigits digits) :
    ∃ ser : Serial, serialPack digits = .ok ser ∧ ∀ k, k < 6 → (byteAt ser.toList k).toNat =
      16 * Claims.digitOfWeight digits (2 * k + 1) + Claims.digitOfWeight digits (2 * k) := by
  refine ⟨_, (serialPack_ok_iff digits _).2 ⟨h, rfl⟩, fun k hk => ?_⟩
  rw [← packPair_paddedDigit h hk]
  interval_cases k <;> rfl

/-- An encode of valid digits and a name of a legal table succeeds with the frame of the entry's code (R100). -/
theorem encodeFrame_of_mem {table : List PropEntry} {digits : Bytes} {ser : Serial} {e : PropEntry} (cmd : Byte)
    (hser : serialPack digits = .ok ser) (ht : TableLegal table) (he : e ∈ table) :
    encodeFrame table digits cmd e.name = .ok (frameOfBody (frameBody ser cmd e.code)) := by
  have hcode : propByName table e.name = .ok e.code := by rw [propByName, entryByName_of_mem ht he]
  simp only [encodeFrame, hser, hcode]

/-- Settles O47: the frame is laid out byte by byte, its serial bytes are the packed digits, and its checksum is that of
the body. -/
theorem encodeBuildsRequestFrame : Obligations.EncodeBuildsRequestFrame := by
  intro s digits cmd e ht he hdig
  obtain ⟨ser, hser, hbytes⟩ := serialPack_of_valid hdig
  refine ⟨frameOfBody (frameBody ser cmd e.code), ?_, rfl, rfl, rfl, fun k hk => ?_, rfl, rfl, rfl, rfl, ?_, rfl⟩
  · rw [exec, execCodecEncode, encodeFrame_of_mem cmd hser ht he]
    rfl
  · rw [← hbytes k hk]
    interval_cases k <;> rfl
  · exact checksum_toNat (frameBody ser cmd e.code)

/-! ## The wire rows of a frame that reaches the dispatch -/

theorem decodeWith_of_header {f : Bytes} {p : Located} (h : header f = .ok p) (arm : Located → DecodeResult) :
    decodeWith arm f = arm p := by
  rw [decodeWith, h]

section Rows
variable {f : Bytes} {p : Located} (h : header f = .ok p) (s : State)
include h

theorem exec_codecDecode_of_header :
    exec (.codecDecode f) s = respondDecoded s (dispatchCommand s.prop f p) := by
  rw [exec, execCodecDecode, decodeFrame_of_header h]

theorem exec_wireReadRequest_of_header : exec (.wireReadRequest f) s = respondDecoded s (unknownCommand f p) := by
  rw [exec, execWireReadRequest, decodeWith_of_header h]

theorem exec_wireReadResponse_of_header :
    exec (.wireReadResponse f) s = respondDecoded s (response91 s.prop f p) := by
  rw [exec, execWireReadResponse, decodeWith_of_header h]

theorem exec_wireReadResponseMore_of_header :
    exec (.wireReadResponseMore f) s = respondDecoded s (response91 s.prop f p) := by
  rw [exec, execWireReadResponseMore, decodeWith_of_header h]

theorem exec_wireErrorResponse_of_header :
    exec (.wireErrorResponse f) s = respondDecoded s (errorResponse f p) := by
  rw [exec, execWireErrorResponse, decodeWith_of_header h]

theorem exec_wireOtherCommand_of_header :
    exec (.wireOtherCommand f) s = respondDecoded s (unknownCommand f p) := by
  rw [exec, execWireOtherCommand, decodeWith_of_header h]

/-- The wire row of a frame's command byte runs the arm the dispatch takes (R54, R112). -/
theorem exec_wireInstr_of_header : exec (wireInstr (commandByte f p) f) s = exec (.codecDecode f) s := by
  rw [exec_codecDecode_of_header h, dispatchCommand]
  rcases wireInstr_eq_cases (rfl : wireInstr (commandByte f p) f = _) with
    ⟨hi, hc⟩ | ⟨hi, hc⟩ | ⟨hi, hc⟩ | ⟨hi, hc⟩ | ⟨hi, hc⟩ <;> rw [hi]
  · rw [exec_wireReadRequest_of_header h, hc]
    rfl
  · rw [exec_wireReadResponse_of_header h, hc]
    rfl
  · rw [exec_wireReadResponseMore_of_header h, hc]
    rfl
  · rw [exec_wireErrorResponse_of_header h, hc]
    rfl
  · simp only [List.mem_cons, List.not_mem_nil, or_false, not_or] at hc
    obtain ⟨-, h91, hB1, hD1⟩ := hc
    rw [exec_wireOtherCommand_of_header h, if_neg (not_or.2 ⟨h91, hB1⟩), if_neg hD1]

end Rows

/-- A frame's command is reached when it passes the checks before the dispatch (R112). -/
theorem reachedCommand_eq_some_iff {f : Bytes} {c : Byte} :
    reachedCommand f = some c ↔ ∃ p, header f = .ok p ∧ commandByte f p = c := by
  unfold reachedCommand
  cases header f <;> simp

/-- Settles O57: refining changes a decode only, into the row of the arm its dispatch takes. -/
theorem wireRowsRunAsDecode : Obligations.WireRowsRunAsDecode := by
  intro i s
  rcases refine_cases i with h | ⟨f, c, rfl, hc, h⟩
  · rw [h]
  · obtain ⟨p, hp, rfl⟩ := reachedCommand_eq_some_iff.1 hc
    rw [h, exec_wireInstr_of_header hp]

/-- A frame reaches the dispatch in the decoder exactly when it does in the words of R106 to R110. -/
theorem header_ok_iff_dispatched {f : Bytes} {p : Located} :
    header f = .ok p ↔ Claims.Dispatched f p.start p.div p.stop := by
  rw [header_ok_iff, locate_ok_iff, first_eq_some_iff, last_eq_some_iff, first_eq_some_iff, verify, checksumOk_iff]
  constructor
  · rintro ⟨⟨⟨-, hs, hs'⟩, ⟨hd, hd', hd''⟩, -, ht, ht', ht''⟩, hord, hsum, hdiv, hstop⟩
    exact ⟨⟨by omega, hd, ht, hs, hs', hd', hd'', ht', ht''⟩, hord, hsum, hdiv, hstop⟩
  · rintro ⟨⟨hlt, hd, ht, hs, hs', hd', hd'', ht', ht''⟩, hord, hsum, hdiv, hstop⟩
    exact ⟨⟨⟨by omega, hs, hs'⟩, ⟨hd, hd', hd''⟩, by omega, ht, ht', ht''⟩, hord, hsum, hdiv, hstop⟩

/-! ## The records of a dispatched frame -/

/-- A slice inside a sequence, byte by byte (R8). -/
theorem slice_eq_map_byteAt {s : Bytes} {a n : Nat} (h : a + n ≤ s.length) :
    slice s a (a + n) = (List.range n).map fun i => byteAt s (a + i) := by
  refine List.ext_getElem (by simp [slice_length h]) fun i hi hi' => ?_
  have hin : a + i < s.length := by simp at hi'; omega
  simp [slice, byteAt_eq_getElem hin]

/-- The serial number the decoder renders is the one of the statements (R83, R111). -/
theorem serialUnpack_serialField {f : Bytes} {p : Located} (h : p.start + 7 ≤ f.length) :
    serialUnpack (serialField f p) = Claims.serialText f p.start := by
  have hslice : (serialField f p).toList = slice f (p.start + 1) (p.start + 7) :=
    (slice_eq_map_byteAt (a := p.start + 1) (n := 6) (by omega)).symm
  rw [serialUnpack_eq, hslice, Claims.serialText]

/-- The four bytes from `div+3` are an entry's code, reversed and biased, exactly when the code the decoder reads there
is the entry's (R114). -/
theorem codeField_eq_iff {f : Bytes} {p : Located} (h : p.div + 7 ≤ f.length) (c : Code) :
    codeField f p = c ↔
      slice f (p.div + 3) (p.div + 7) = [c.b3 + 0x33, c.b2 + 0x33, c.b1 + 0x33, c.b0 + 0x33] := by
  have hslice : slice f (p.div + 3) (p.div + 7) = [byteAt f (p.div + 3), byteAt f (p.div + 4), byteAt f (p.div + 5),
      byteAt f (p.div + 6)] := slice_eq_map_byteAt (a := p.div + 3) (n := 4) (by omega)
  obtain ⟨b0, b1, b2, b3⟩ := c
  simp only [hslice, codeField, biasSub, Code.mk.injEq, List.cons.injEq, and_true, BitVec.sub_eq_iff_eq_add]
  tauto

/-- The value bytes of a response, unbiased and summed (R114, R115). -/
theorem bcdValue_unbiased_slice {f : Bytes} {a n : Nat} (h : a + n ≤ f.length) :
    bcdValue ((slice f a (a + n)).map biasSub) =
      ∑ i ∈ Finset.range n, pairValue (byteAt f (a + i) - 0x33) * 100 ^ i := by
  rw [bcdValue_eq_sum, slice_eq_map_byteAt h, List.map_map, List.length_map, List.length_range]
  refine Finset.sum_congr rfl fun i hi => ?_
  rw [byteAt_eq_getElem (by simpa using hi)]
  simp [biasSub]

section Dispatched
variable {f : Bytes} {p : Located} (h : Claims.Dispatched f p.start p.div p.stop)
include h

theorem unknownCommand_of_dispatched :
    unknownCommand f p = Claims.record .unknownCommand f p.start p.div false Str.errCode
      (.text (Str.ofChars ['-', '1'])) := by
  obtain ⟨⟨-, hdiv, -⟩, -, -, hserial, -⟩ := h
  rw [unknownCommand, serialUnpack_serialField (by omega)]
  rfl

theorem errorResponse_of_dispatched :
    errorResponse f p = Claims.record .errorResponse f p.start p.div false Str.errCode
      (.text (hex2 (byteAt f (p.stop - 3)))) := by
  obtain ⟨⟨-, hdiv, -⟩, -, -, hserial, -⟩ := h
  rw [errorResponse, serialUnpack_serialField (by omega)]
  rfl

end Dispatched

section Response91
variable {f : Bytes} {p : Located} (t : List PropEntry)

/-- No length byte before the checksum (R113). -/
theorem response91_of_no_length (h : p.stop ≤ p.div + 3) : response91 t f p = Claims.structural .short := by
  rw [response91, if_pos (by omega)]
  rfl

/-- A length byte below 4, or one that does not end at the checksum (R113). -/
theorem response91_of_bad_length (h : p.div + 3 < p.stop)
    (hlen : (byteAt f (p.div + 2)).toNat < 4 ∨ p.div + 3 + (byteAt f (p.div + 2)).toNat ≠ p.stop - 1) :
    response91 t f p = Claims.structural .length := by
  rw [response91, if_neg (not_not_intro h)]
  split
  · rfl
  · rw [if_pos (by omega)]
    rfl

/-- A length byte that ends at the checksum: the entry of the code, or none (R114 to R116). -/
theorem response91_of_length {len : Nat} (h : Claims.Dispatched f p.start p.div p.stop)
    (hl : (byteAt f (p.div + 2)).toNat = len) (h4 : 4 ≤ len) (hend : p.div + 3 + len = p.stop - 1) :
    response91 t f p = (propByCode t (codeField f p)).elim
      (Claims.record .unknownProperty f p.start p.div false [] (.num 0))
      fun e => Claims.record .ok f p.start p.div true e.name (.num (Claims.readValue f p.div len e)) := by
  obtain ⟨⟨-, -, hstop, -⟩, -, -, hserial, -⟩ := h
  have hvalue : bcdValue ((slice f (p.div + 7) (p.div + 3 + len)).map biasSub) =
      ∑ i ∈ Finset.range (len - 4), pairValue (byteAt f (p.div + 7 + i) - 0x33) * 100 ^ i := by
    rw [← bcdValue_unbiased_slice (by omega), show p.div + 7 + (len - 4) = p.div + 3 + len by omega]
  rw [response91, hl, if_neg (by omega), if_neg (by omega), if_neg (by omega),
    serialUnpack_serialField (by omega), hvalue]
  cases propByCode t (codeField f p) with
  | none => rfl
  | some e =>
    dsimp only
    rw [scaleBy_eq]
    rfl

end Response91

/-- The two response rows and the arm they share, on each of its outcomes (R113 to R116). -/
theorem responseRow_outcomes {f : Bytes} {p : Located} {s : State} {i : Instr} {len : Nat}
    (h : Claims.Dispatched f p.start p.div p.stop) (hi : exec i s = respondDecoded s (response91 s.prop f p))
    (hl : (byteAt f (p.div + 2)).toNat = len) :
    (p.stop ≤ p.div + 3 → exec i s = .next (Claims.answered s .ok (.decoded (Claims.structural .short)))) ∧
    (p.div + 3 < p.stop → len < 4 ∨ p.div + 3 + len ≠ p.stop - 1 →
      exec i s = .next (Claims.answered s .ok (.decoded (Claims.structural .length)))) ∧
    (∀ e, TableLegal s.prop → e ∈ s.prop → Claims.ResponseOf f p.div p.stop len e →
      exec i s = .next (Claims.answered s .ok (.decoded
        (Claims.record .ok f p.start p.div true e.name (.num (Claims.readValue f p.div len e)))))) ∧
    (4 ≤ len → p.div + 3 + len = p.stop - 1 → (∀ e ∈ s.prop, ¬ Claims.ResponseOf f p.div p.stop len e) →
      exec i s = .next (Claims.answered s .ok (.decoded
        (Claims.record .unknownProperty f p.start p.div false [] (.num 0))))) := by
  have ⟨⟨_, _, hinside, _⟩, _⟩ := h
  rw [hi]
  refine ⟨fun hshort => ?_, fun hlong hbad => ?_, fun e ht he hresp => ?_, fun h4 hend hnone => ?_⟩
  · rw [response91_of_no_length _ hshort]
    rfl
  · rw [response91_of_bad_length _ hlong (hl ▸ hbad)]
    rfl
  · obtain ⟨-, h4, hend, hcode⟩ := hresp
    rw [response91_of_length _ h hl h4 hend, (codeField_eq_iff (by omega) _).2 hcode, propByCode_of_mem ht he]
    rfl
  · have hcode : ∀ e ∈ s.prop, e.code ≠ codeField f p := fun e he hc =>
      hnone e he ⟨hl, h4, hend, (codeField_eq_iff (by omega) _).1 hc.symm⟩
    rw [response91_of_length _ h hl h4 hend, propByCode_none hcode]
    rfl

/-- What decodes to a wire row is a frame to decode whose command byte names that row (R54, R112). -/
theorem wireInstr_of_decodeInput {p : Params} {x : PortInput} {i : Instr} {f : Bytes} (h : decodeInput p x = .ok i)
    (hi : i ∈ [Instr.wireReadRequest f, .wireReadResponse f, .wireReadResponseMore f, .wireErrorResponse f,
      .wireOtherCommand f]) : ∃ pos, header f = .ok pos ∧ wireInstr (commandByte f pos) f = i := by
  cases x with
  | timer inst =>
    obtain rfl := Except.ok.inj h
    simp at hi
  | request q =>
    obtain ⟨j, hj, rfl⟩ := decodeInput_request h
    rcases refine_cases j with hr | ⟨g, c, rfl, hc, hr⟩
    · exact absurd (hr ▸ hi) (decodeRequest_not_wire hj f)
    · obtain ⟨pos, hpos, rfl⟩ := reachedCommand_eq_some_iff.1 hc
      obtain rfl : g = f := by
        rw [hr] at hi
        rcases wireInstr_eq_cases (rfl : wireInstr (commandByte g pos) g = _) with
          ⟨hw, -⟩ | ⟨hw, -⟩ | ⟨hw, -⟩ | ⟨hw, -⟩ | ⟨hw, -⟩ <;> simpa [hw] using hi
      exact ⟨pos, hpos, hr.symm⟩

/-- Settles O58: each row runs its own arm on a frame that passes the checks, and only the refinement of a decode gives
a row. -/
theorem wireRowsOffTheirCommand : Obligations.WireRowsOffTheirCommand := by
  refine ⟨fun s f start div stop hf => ?_, fun p x i h f hi => ?_⟩
  · have hp : header f = .ok ⟨start, div, stop⟩ := header_ok_iff_dispatched.2 hf
    refine ⟨fun i hi => ?_, ?_, fun i hi len hl => responseRow_outcomes (p := ⟨start, div, stop⟩) hf ?_ hl⟩
    · have hrow : exec i s = respondDecoded s (unknownCommand f ⟨start, div, stop⟩) := by
        rcases List.mem_pair.1 hi with rfl | rfl
        · exact exec_wireReadRequest_of_header hp s
        · exact exec_wireOtherCommand_of_header hp s
      rw [hrow, unknownCommand_of_dispatched hf]
      rfl
    · rw [exec_wireErrorResponse_of_header hp, errorResponse_of_dispatched hf]
      rfl
    · rcases List.mem_pair.1 hi with rfl | rfl
      · exact exec_wireReadResponse_of_header hp s
      · exact exec_wireReadResponseMore_of_header hp s
  · obtain ⟨pos, hpos, hrow⟩ := wireInstr_of_decodeInput h hi
    refine ⟨pos.start, pos.div, pos.stop, header_ok_iff_dispatched.1 hpos, ?_⟩
    rcases wireInstr_eq_cases hrow with ⟨rfl, hc⟩ | ⟨rfl, hc⟩ | ⟨rfl, hc⟩ | ⟨rfl, hc⟩ | ⟨rfl, hc⟩ <;>
      simpa [commandByte] using hc

end Sys2Proof.Machine

/-! PROOFS. The Frame Assembler (spec/40_assembler.md): what each operation makes of the instance it addresses (R66 to
R74), the frames a step emits (R76), sequences of pushes, ticks and timer events (R75, R78, R133), and the idle step
(R77). -/

namespace Sys2Proof.Machine

/-! ## The words of the statements and the model's own -/

@[simp] theorem emitted_nil (out : List Bytes) : Claims.emitted out [] = out := rfl

theorem emitted_of_ne_nil {out : List Bytes} {f : Bytes} (h : f ≠ []) : Claims.emitted out f = out ++ [f] := if_neg h

theorem Instance.emitNonempty_eq (x : Instance) (f : Bytes) :
    x.emitNonempty f = { x with out := Claims.emitted x.out f } := by
  unfold Instance.emitNonempty Claims.emitted
  split <;> rfl

theorem find_eq_some_iff_firstAt {s pat : Bytes} {p : Nat} : find s pat = some p ↔ Claims.FirstAt s pat p :=
  find_eq_some_iff

theorem find_eq_none_iff_not_occursAt {s pat : Bytes} : find s pat = none ↔ ∀ p, ¬ Claims.OccursAt s pat p :=
  find_eq_none_iff

section Addressed
variable {s : State} {inst : Byte} {x : Instance}

/-- The instance a response was given for holds its new value. -/
theorem updated_insts_self (hx : s.insts[inst.toNat]? = some x) (y : Instance) (st : Status) (pl : Payload) :
    (Claims.updated s inst y st pl).insts[inst.toNat]? = some y :=
  List.getElem?_set_self (List.getElem?_eq_some_iff.1 hx).1

/-- The instance whose timer event happened holds its new value. -/
theorem replaced_insts_self (hx : s.insts[inst.toNat]? = some x) (y : Instance) :
    (Claims.replaced s inst y).insts[inst.toNat]? = some y :=
  List.getElem?_set_self (List.getElem?_eq_some_iff.1 hx).1

end Addressed

/-! ## What a push makes of the combined buffer (R67 to R70) -/

section Cuts
variable {c : AsmConfig} {comb : Bytes}

theorem cutBuffer_of_cap (h : c.maxBuf.toNat ≤ comb.length) : cutBuffer c comb = ⟨comb.take c.maxBuf.toNat, []⟩ :=
  if_pos h

theorem cutBuffer_of_firstAt {p : Nat} (hlt : comb.length < c.maxBuf.toNat)
    (hp : Claims.FirstAt comb c.boundary p) : cutBuffer c comb = ⟨Claims.boundaryFrame c comb p, []⟩ := by
  rw [cutBuffer, if_neg (Nat.not_le.2 hlt), find_eq_some_iff_firstAt.2 hp]
  simp only [Claims.boundaryFrame, apply_ite (comb.take ·)]

theorem cutBuffer_of_not_occursAt (hlt : comb.length < c.maxBuf.toNat)
    (hno : ∀ p, ¬ Claims.OccursAt comb c.boundary p) : cutBuffer c comb = ⟨[], comb⟩ := by
  rw [cutBuffer, if_neg (Nat.not_le.2 hlt), find_eq_none_iff_not_occursAt.2 hno]

/-- A frame cut at the cap is as long as the cap, so it is not suppressed (R68, R76, R79). -/
theorem length_take_cap (h : c.maxBuf.toNat ≤ comb.length) :
    (comb.take c.maxBuf.toNat).length = c.maxBuf.toNat := by
  rw [List.length_take, Nat.min_eq_left h]

theorem emitted_take_cap (out : List Bytes) (hcap : 1 ≤ c.maxBuf.toNat) (h : c.maxBuf.toNat ≤ comb.length) :
    Claims.emitted out (comb.take c.maxBuf.toNat) = out ++ [comb.take c.maxBuf.toNat] :=
  emitted_of_ne_nil (List.length_pos_iff.1 (by rwa [length_take_cap h]))

end Cuts

/-- A running instance after an accepted push: the cut of the combined buffer, the timer armed afresh (R67). -/
theorem pushed_eq {x : Instance} {c : AsmConfig} (hl : x.life = .running) (hc : x.cfg = some c) (chunk : Bytes) :
    pushed x c chunk = ⟨.running, some c, (cutBuffer c (x.buf ++ chunk)).rest, true, 0,
      Claims.emitted x.out (cutBuffer c (x.buf ++ chunk)).frame⟩ := by
  simp only [pushed, Instance.emitNonempty_eq, hl, hc]

/-- The three cuts in the words of the statements. -/
theorem afterPush_pushed {x : Instance} {c : AsmConfig} (hl : x.life = .running) (hc : x.cfg = some c)
    (hcap : 1 ≤ c.maxBuf.toNat) (chunk : Bytes) : Claims.AfterPush c x.buf chunk x.out (pushed x c chunk) := by
  rw [pushed_eq hl hc]
  refine ⟨rfl, rfl, rfl, rfl, fun hge => ?_, fun hlt => ⟨fun p hp => ?_, fun hno => ?_⟩⟩
  · rw [cutBuffer_of_cap hge]
    exact ⟨rfl, emitted_take_cap x.out hcap hge⟩
  · rw [cutBuffer_of_firstAt hlt hp]
    exact ⟨rfl, rfl⟩
  · rw [cutBuffer_of_not_occursAt hlt hno]
    exact ⟨rfl, rfl⟩

/-! ## What each operation does with the instance it addresses -/

theorem requireLife_of_mem {x : Instance} {lives : List Life} (h : x.life ∈ lives) (s : State) (run : Result) :
    requireLife s x lives run = run := if_pos h

theorem requireLife_of_not_mem {x : Instance} {lives : List Life} (h : x.life ∉ lives) (s : State) (run : Result) :
    requireLife s x lives run = .next (Claims.answered s .stateError .none) := if_neg h

theorem withConfig_some {x : Instance} {c : AsmConfig} (h : x.cfg = some c) (run : AsmConfig → Result) :
    withConfig x run = run c := by
  rw [withConfig, h]

/-- An instance whose timer event has happened: the buffer emitted if it is not empty, the timer disarmed (R72). -/
def Instance.flushed (x : Instance) : Instance :=
  { x with buf := [], timerArmed := false, out := Claims.emitted x.out x.buf }

section Exec
variable {s : State} {inst : Byte} {x : Instance} {c : AsmConfig}

/-- Outside `Running` a push, a tick and an end are refused (R126). -/
theorem exec_of_not_running (hx : s.insts[inst.toNat]? = some x) (hl : x.life ≠ .running) (chunk : Bytes) (ms : U32) :
    ∀ i ∈ [Instr.asmPush inst chunk, .asmTick inst ms, .asmEnd inst],
      exec i s = .next (Claims.answered s .stateError .none) := by
  have hno : x.life ∉ [Life.running] := by simpa using hl
  intro i hi
  simp only [List.mem_cons, List.not_mem_nil, or_false] at hi
  rcases hi with rfl | rfl | rfl <;> exact (withInstance_some hx).trans (requireLife_of_not_mem hno s _)

/-- A push on a running instance is accepted (R67). -/
theorem exec_asmPush_of_runs (h : Claims.Runs s inst x c) (chunk : Bytes) :
    exec (.asmPush inst chunk) s = .next (Claims.updated s inst (pushed x c chunk) .ok .none) := by
  obtain ⟨hx, hl, hc⟩ := h
  rw [exec, execAsmPush, withInstance_some hx, requireLife_of_mem (by simp [hl]), withConfig_some hc]
  rfl

/-- A tick counts while the timer is armed (R71). -/
theorem exec_asmTick_of_armed (h : Claims.Runs s inst x c) (harm : x.timerArmed = true) (ms : U32) :
    exec (.asmTick inst ms) s =
      .next (Claims.updated s inst { x with idleElapsed := elapse x.idleElapsed ms c.idle } .ok .none) := by
  obtain ⟨hx, hl, hc⟩ := h
  rw [exec, execAsmTick, withInstance_some hx, requireLife_of_mem (by simp [hl]), if_pos harm, withConfig_some hc]
  rfl

/-- A tick of a running instance is ignored while the timer is disarmed (R71). -/
theorem exec_asmTick_of_disarmed (hx : s.insts[inst.toNat]? = some x) (hl : x.life = .running)
    (harm : x.timerArmed = false) (ms : U32) :
    exec (.asmTick inst ms) s = .next (Claims.answered s .ok .none) := by
  rw [exec, execAsmTick, withInstance_some hx, requireLife_of_mem (by simp [hl]), if_neg (by simp [harm])]
  rfl

/-- The timer event where it is enabled (R72). -/
theorem exec_asmIdleFire_of_pending (hx : s.insts[inst.toNat]? = some x) (hp : timerPending x = true) :
    exec (.asmIdleFire inst) s = .next (Claims.replaced s inst x.flushed) := by
  simp only [exec, execAsmIdleFire, hx, hp, if_true, Instance.emitNonempty_eq]
  rfl

/-- The timer event where it is not enabled: log 3. -/
theorem exec_asmIdleFire_of_not_pending (hx : s.insts[inst.toNat]? = some x) (hp : ¬ timerPending x = true) :
    exec (.asmIdleFire inst) s = .fault .timerNotEnabled := by
  simp only [exec, execAsmIdleFire, hx, if_neg hp]

/-- The end of a running instance's stream (R73). -/
theorem exec_asmEnd_of_running (hx : s.insts[inst.toNat]? = some x) (hl : x.life = .running) :
    exec (.asmEnd inst) s = .next (Claims.updated s inst { x.flushed with life := .closed } .ok .none) := by
  rw [exec, execAsmEnd, withInstance_some hx, requireLife_of_mem (by simp [hl]), Instance.emitNonempty_eq]
  rfl

/-- The destruction of a running or closed instance (R74). -/
theorem exec_asmDestroy_of_live (hx : s.insts[inst.toNat]? = some x) (hl : x.life = .running ∨ x.life = .closed) :
    exec (.asmDestroy inst) s = .next (Claims.updated s inst
      { x with life := .destroyed, buf := [], timerArmed := false } .ok .none) := by
  rw [exec, execAsmDestroy, withInstance_some hx, requireLife_of_mem (by simpa using hl)]
  rfl

/-- There is nothing to destroy before a configuration and after a destruction (R74, R126). -/
theorem exec_asmDestroy_of_not_live (hx : s.insts[inst.toNat]? = some x)
    (hl : x.life = .unconfigured ∨ x.life = .destroyed) :
    exec (.asmDestroy inst) s = .next (Claims.answered s .stateError .none) := by
  have hno : x.life ∉ [Life.running, Life.closed] := by rcases hl with hl | hl <;> simp [hl]
  rw [exec, execAsmDestroy, withInstance_some hx, requireLife_of_not_mem hno]

end Exec

/-! ## `ASM_CONFIGURE` (R66) -/

/-- The first check a configuration fails, in the order of R66 and R130. -/
theorem configProblem_of_first_failure {p : Params} {c : AsmConfig} {e : ConfigError}
    (h : (c.boundary = [] ∧ e = .emptyBoundary) ∨
      (c.boundary ≠ [] ∧ p.boundaryMax < c.boundary.length ∧ e = .boundaryTooLong) ∨
      (c.boundary ≠ [] ∧ c.boundary.length ≤ p.boundaryMax ∧ (c.maxBuf = 0 ∨ p.maxBufferLimit < c.maxBuf.toNat) ∧
        e = .badMaxBuf) ∨
      (c.boundary ≠ [] ∧ c.boundary.length ≤ p.boundaryMax ∧ c.maxBuf ≠ 0 ∧ c.maxBuf.toNat ≤ p.maxBufferLimit ∧
        (c.idle = 0 ∨ p.idleLimit < c.idle.toNat) ∧ e = .badIdle)) : configProblem p c = some e := by
  have zero_iff (w : U32) : w = 0 ↔ w.toNat = 0 := BitVec.toNat_inj.symm
  simp only [← List.length_eq_zero_iff, ne_eq, zero_iff] at h
  unfold configProblem
  rcases h with ⟨hbd, rfl⟩ | ⟨hbd, hlong, rfl⟩ | ⟨hbd, hlong, hcap, rfl⟩ | ⟨hbd, hlong, hne, hcap, hidle, rfl⟩
  · rw [if_pos (by omega)]
  · rw [if_neg (by omega), if_pos hlong]
  · rw [if_neg (by omega), if_neg (by omega), if_pos (by omega)]
  · rw [if_neg (by omega), if_neg (by omega), if_neg (by omega), if_pos (by omega)]

section Configure
variable {s : State} {inst : Byte} {x : Instance} {fl : CfgFlags} {bd : Bytes} {mb idl : U32}

theorem exec_asmConfigure_of_legal (hx : s.insts[inst.toNat]? = some x)
    (h : (configOf fl bd mb idl).Legal s.params) :
    exec (.asmConfigure inst fl bd mb idl) s = .next (Claims.updated s inst
      ⟨.running, some (configOf fl bd mb idl), [], false, 0, x.out⟩ .ok .none) := by
  simp only [exec, execAsmConfigure, withInstance_some hx, (configProblem_none_iff _ _).2 h]
  rfl

theorem exec_asmConfigure_of_problem {e : ConfigError} (hx : s.insts[inst.toNat]? = some x)
    (h : configProblem s.params (configOf fl bd mb idl) = some e) :
    exec (.asmConfigure inst fl bd mb idl) s = .next (Claims.updated s inst
      ⟨.unconfigured, none, [], false, 0, x.out⟩ .configError (.configError e)) := by
  simp only [exec, execAsmConfigure, withInstance_some hx, h]
  rfl

end Configure

/-- Settles O20: a legal configuration has no problem, and each refusal names the first check that fails. -/
theorem configureStartsOrRefuses : Obligations.ConfigureStartsOrRefuses := by
  rintro s inst fl bd mb idl maxb idle incl x hx rfl rfl rfl
  refine ⟨fun h1 h2 h3 h4 h5 h6 => ?_, fun e he => ?_⟩
  · exact exec_asmConfigure_of_legal hx ⟨h1, h2, h3, h4, h5, h6⟩
  · exact exec_asmConfigure_of_problem hx (configProblem_of_first_failure he)

/-! ## Single operations -/

/-- Settles O21: at the cap the cut is the first `CFG_MAXBUF` bytes, at least one. -/
theorem pushAtCapCutsThere : Obligations.PushAtCapCutsThere := by
  intro s inst chunk x c hr hcap hge
  have ⟨_, hl, hc⟩ := hr
  refine ⟨length_take_cap hge, ?_⟩
  rw [exec_asmPush_of_runs hr, pushed_eq hl hc, cutBuffer_of_cap hge, emitted_take_cap x.out hcap hge]

/-- Settles O22: below the cap the cut is at the first boundary. -/
theorem pushAtBoundaryCutsThere : Obligations.PushAtBoundaryCutsThere := by
  intro s inst chunk x c p hr hlt hp
  have ⟨_, hl, hc⟩ := hr
  rw [exec_asmPush_of_runs hr, pushed_eq hl hc, cutBuffer_of_firstAt hlt hp]

/-- Settles O23: below the cap and without the boundary nothing is cut. -/
theorem pushAccumulates : Obligations.PushAccumulates := by
  intro s inst chunk x c hr hlt hno
  have ⟨_, hl, hc⟩ := hr
  rw [exec_asmPush_of_runs hr, pushed_eq hl hc, cutBuffer_of_not_occursAt hlt hno, emitted_nil]

/-- Settles O25, by the instance's life and its timer. -/
theorem tickCountsWhileArmed : Obligations.TickCountsWhileArmed := by
  intro s inst ms x hx
  refine ⟨fun c hl hc harm => ?_, fun hl harm => ?_, fun hl => ?_⟩
  · exact ⟨elapse x.idleElapsed ms c.idle, elapse_toNat _ _ _, exec_asmTick_of_armed ⟨hx, hl, hc⟩ harm ms⟩
  · exact exec_asmTick_of_disarmed hx hl harm ms
  · exact exec_of_not_running hx hl [] ms _ (by simp)

/-- Settles O26: the event answers exactly where it is pending. -/
theorem idleFireFlushes : Obligations.IdleFireFlushes := by
  refine ⟨fun s inst x c ⟨hx, hl, hc⟩ harm hidle => ?_, fun s t inst h => ?_⟩
  · exact exec_asmIdleFire_of_pending hx ((timerPending_iff x).2 ⟨hl, harm, c, hc, hidle⟩)
  · obtain ⟨x, hx, hp, -⟩ := execAsmIdleFire_cases h
    obtain ⟨hl, harm, c, hc, hidle⟩ := (timerPending_iff x).1 hp
    exact ⟨x, c, ⟨hx, hl, hc⟩, harm, hidle⟩

/-- Settles O27: the closed instance is one that does not run and can be destroyed. -/
theorem endFlushesAndCloses : Obligations.EndFlushesAndCloses := by
  intro s inst x hx
  refine ⟨fun hl => ⟨_, _, rfl, rfl, exec_asmEnd_of_running hx hl, ?_, ?_⟩, fun hl => ?_⟩
  · exact exec_of_not_running (updated_insts_self hx _ _ _) (by simp)
  · exact exec_asmDestroy_of_live (updated_insts_self hx _ _ _) (.inr rfl)
  · exact exec_of_not_running hx hl [] 0 _ (by simp)

/-- No step of a destroyed instance but `ASM_CONFIGURE` gives it another life (R74). -/
theorem InstStep.keeps_destroyed {p : Params} {x y : Instance} {i : Instr} (h : InstStep p x i y)
    (hi : ∀ inst fl bd mb idl, i ≠ .asmConfigure inst fl bd mb idl) (hx : x.life = .destroyed) :
    y.life = .destroyed := by
  cases h with
  | refuse | configure => exact absurd rfl (hi _ _ _ _ _)
  | push => rwa [pushed_life]
  | tick => exact hx
  | fire => rwa [← Instance.emitNonempty_life x x.buf] at hx
  | finish hl => simp [hl] at hx
  | destroy => rfl

/-- Settles O28: an instruction leaves a destroyed instance as it is, or lets it make a step of its own. -/
theorem destroyDiscards : Obligations.DestroyDiscards := by
  refine ⟨fun s inst x hx => ⟨exec_asmDestroy_of_live hx, exec_asmDestroy_of_not_live hx⟩,
    fun s t i h hi k x y hx hy hd => ?_⟩
  rcases exec_instance_cases h hx hy with rfl | hxy
  · exact hd
  · exact hxy.keeps_destroyed hi hd

/-! ## At most one frame per instruction (R76) -/

/-- The instructions with an emission: the push, the timer event and the end of the stream (R44). -/
def mayEmit : Instr → Bool
  | .asmPush _ _ | .asmIdleFire _ | .asmEnd _ => true
  | _ => false

theorem emitting_cases {i : Instr} {k : Nat} (hi : mayEmit i = true) (hk : Claims.addressed i = some k) :
    (∃ chunk inst, i = .asmPush inst chunk ∧ inst.toNat = k) ∨ (∃ inst, i = .asmIdleFire inst ∧ inst.toNat = k) ∨
      (∃ inst, i = .asmEnd inst ∧ inst.toNat = k) := by
  cases i with
  | asmPush inst chunk => exact .inl ⟨chunk, inst, rfl, Option.some.inj hk⟩
  | asmIdleFire inst => exact .inr (.inl ⟨inst, rfl, Option.some.inj hk⟩)
  | asmEnd inst => exact .inr (.inr ⟨inst, rfl, Option.some.inj hk⟩)
  | _ => cases hi

/-- A running instance of the invariant buffers less than its cap (R21). -/
theorem Instance.Inv.buffer_below_cap {p : Params} {x : Instance} (h : x.Inv p) (hl : x.life = .running) :
    ∃ c, x.cfg = some c ∧ x.buf.length < c.maxBuf.toNat := by
  obtain ⟨c, hc, -, -, hlife⟩ := h.configured (by simp [hl])
  exact ⟨c, hc, ((lifeInv_of_running hl).1 hlife).1⟩

/-- A step that changes `OUT` is one of three and emits bytes within the cap, the empty frame suppressed (R76). -/
theorem InstStep.emits {p : Params} {x y : Instance} {i : Instr} (h : InstStep p x i y) (hx : x.Inv p)
    (hne : y.out ≠ x.out) :
    mayEmit i = true ∧ ∃ f c, y.out = Claims.emitted x.out f ∧ x.cfg = some c ∧ f.length ≤ c.maxBuf.toNat := by
  have flush (hl : x.life = .running) : ∃ f c, (x.emitNonempty x.buf).out = Claims.emitted x.out f ∧
      x.cfg = some c ∧ f.length ≤ c.maxBuf.toNat := by
    obtain ⟨c, hc, hlt⟩ := hx.buffer_below_cap hl
    exact ⟨x.buf, c, by rw [Instance.emitNonempty_eq], hc, hlt.le⟩
  cases h with
  | refuse | configure | tick | destroy => exact absurd rfl hne
  | @push _ chunk c hl hc =>
    exact ⟨rfl, _, c, by rw [pushed_eq hl hc], hc, cutBuffer_frame_length c (x.buf ++ chunk)⟩
  | fire hp => exact ⟨rfl, flush ((timerPending_iff x).1 hp).1⟩
  | finish hl => exact ⟨rfl, flush hl⟩

/-- Settles O15: the instance that changes is the addressed one, and it makes a step of its own. -/
theorem oneFramePerInstruction : Obligations.OneFramePerInstruction := by
  intro s t i hs h k x y hx hy hne
  have hk : Claims.addressed i = some k := by
    by_contra hk
    rw [otherInstancesUntouched s t i k h hk, hx] at hy
    exact hne (congrArg Instance.out (Option.some.inj hy).symm)
  obtain ⟨-, -, -, hinsts⟩ := hs
  rcases exec_instance_cases h hx hy with rfl | hxy
  · exact absurd rfl hne
  · obtain ⟨hi, f, c, hout, hc, hlen⟩ := hxy.emits (hinsts x (List.mem_of_getElem? hx)) hne
    have hf : f ≠ [] := by
      rintro rfl
      exact hne hout
    exact ⟨emitting_cases hi hk, f, c, hout.trans (emitted_of_ne_nil hf), hc, List.length_pos_iff.2 hf, hlen⟩

/-! ## Sequences of instructions -/

theorem execAll_cons {i : Instr} {s t : State} (h : exec i s = .next t) (rest : List Instr) :
    Claims.execAll (i :: rest) s = Claims.execAll rest t := by
  rw [Claims.execAll, h]

theorem execAll_append {is : List Instr} {s t : State} (h : Claims.execAll is s = some t) (js : List Instr) :
    Claims.execAll (is ++ js) s = Claims.execAll js t := by
  induction is generalizing s with
  | nil => rw [List.nil_append, Option.some.inj h]
  | cons i is ih =>
    rw [Claims.execAll] at h
    split at h
    next u hu =>
      rw [List.cons_append, execAll_cons hu]
      exact ih h
    next => cases h

/-- Pushes that never reach the cap nor complete the boundary only extend the buffer (R70). -/
theorem execAll_pushes_accumulate {s : State} {inst : Byte} {x : Instance} {c : AsmConfig} {chunks : List Bytes}
    (hr : Claims.Runs s inst x c) (hlt : (x.buf ++ chunks.flatten).length < c.maxBuf.toNat)
    (hno : ∀ j, j ≤ chunks.length → ∀ q, ¬ Claims.OccursAt (x.buf ++ (chunks.take j).flatten) c.boundary q) :
    ∃ t y, Claims.execAll (chunks.map (Instr.asmPush inst)) s = some t ∧ Claims.Runs t inst y c ∧
      y.buf = x.buf ++ chunks.flatten ∧ y.out = x.out := by
  induction chunks generalizing s x with
  | nil => exact ⟨s, x, rfl, hr, by simp, rfl⟩
  | cons chunk chunks ih =>
    have ⟨hx, _, _⟩ := hr
    rw [List.flatten_cons, ← List.append_assoc] at hlt ⊢
    have hpush := pushAccumulates s inst chunk x c hr
      (by rw [List.length_append] at hlt; omega)
      (by simpa using hno 1 (by simp))
    rw [List.map_cons, execAll_cons hpush]
    exact ih ⟨updated_insts_self hx _ _ _, rfl, rfl⟩ hlt fun j hj => by simpa using hno (j + 1) (by simpa using hj)

/-- Settles O29: the chunks before the last accumulate, and the last one cuts at the first boundary. -/
theorem fragmentationInvariance : Obligations.FragmentationInvariance := by
  intro s inst x c before last p hr _ hbuf hno hp hlt
  obtain ⟨t, y, hall, hry, hybuf, hyout⟩ := execAll_pushes_accumulate (chunks := before) hr
    (by rw [List.length_append] at hlt; rw [hbuf, List.nil_append]; omega)
    (by simpa [hbuf] using hno)
  rw [hbuf, List.nil_append] at hybuf
  have hpush := pushAtBoundaryCutsThere t inst last y c p hry (hybuf ▸ hlt) (hybuf ▸ hp)
  have ⟨hy, _, _⟩ := hry
  rw [hybuf, hyout] at hpush
  rw [List.map_append, execAll_append hall]
  exact ⟨_, _, execAll_cons hpush [], updated_insts_self hy _ _ _, rfl, rfl⟩

/-- Ticks add up in the idle counter of an armed timer, up to `CFG_IDLE` (R71). -/
theorem execAll_ticks_of_armed {s : State} {inst : Byte} {x : Instance} {c : AsmConfig} (ticks : List U32)
    (hr : Claims.Runs s inst x c) (harm : x.timerArmed = true) (hle : x.idleElapsed.toNat ≤ c.idle.toNat) :
    ∃ t e, Claims.execAll (ticks.map (Instr.asmTick inst)) s = some t ∧
      t.insts[inst.toNat]? = some { x with idleElapsed := e } ∧
      e.toNat = min (x.idleElapsed.toNat + (ticks.map BitVec.toNat).sum) c.idle.toNat := by
  have ⟨hx, hl, hc⟩ := hr
  induction ticks generalizing s x with
  | nil => exact ⟨s, x.idleElapsed, rfl, hx, by simpa using hle⟩
  | cons ms ticks ih =>
    have hms := elapse_toNat x.idleElapsed ms c.idle
    have hx' := updated_insts_self hx { x with idleElapsed := elapse x.idleElapsed ms c.idle } .ok .none
    rw [List.map_cons, execAll_cons (exec_asmTick_of_armed hr harm ms)]
    obtain ⟨t, e, hall, ht, he⟩ := ih ⟨hx', hl, hc⟩ harm (hms ▸ Nat.min_le_right _ _) hx' hl hc
    refine ⟨t, e, hall, ht, ?_⟩
    rw [he, hms, List.map_cons, List.sum_cons]
    omega

/-- Ticks of a disarmed timer change no instance (R71). -/
theorem execAll_ticks_of_disarmed {s : State} {inst : Byte} {x : Instance} (ticks : List U32)
    (hx : s.insts[inst.toNat]? = some x) (hl : x.life = .running) (harm : x.timerArmed = false) :
    ∃ t, Claims.execAll (ticks.map (Instr.asmTick inst)) s = some t ∧ t.insts = s.insts := by
  induction ticks generalizing s with
  | nil => exact ⟨s, rfl, rfl⟩
  | cons ms ticks ih =>
    rw [List.map_cons, execAll_cons (exec_asmTick_of_disarmed hx hl harm ms)]
    exact ih (s := Claims.answered s .ok .none) hx

theorem not_timerPending_of_disarmed {x : Instance} (h : x.timerArmed = false) : ¬ timerPending x = true := by
  rw [timerPending_iff, h]
  rintro ⟨-, harm, -⟩
  cases harm

/-- Settles O30: the ticks fill the idle counter, the event flushes and disarms, and later ticks are ignored. -/
theorem idleFlushAfterInterval : Obligations.IdleFlushAfterInterval := by
  intro s inst x c ticks later hr harm hzero hne hsum
  have ⟨hx, hl, hc⟩ := hr
  obtain ⟨t, e, hall, ht, he⟩ := execAll_ticks_of_armed ticks hr harm (by simp [hzero])
  have hfull : c.idle.toNat ≤ e.toNat := by
    rw [he, hzero]
    exact Nat.le_min.2 ⟨by simpa using hsum, Nat.le_refl _⟩
  have hfire := exec_asmIdleFire_of_pending ht ((timerPending_iff _).2 ⟨hl, harm, c, hc, hfull⟩)
  have hy := replaced_insts_self ht (Instance.flushed { x with idleElapsed := e })
  obtain ⟨v, hlater, hv⟩ := execAll_ticks_of_disarmed later hy hl rfl
  refine ⟨t, _, v, _, hall, hfire, hy, emitted_of_ne_nil hne, rfl, hlater, hv, ?_⟩
  exact exec_asmIdleFire_of_not_pending (hv ▸ hy) (not_timerPending_of_disarmed rfl)

/-- A timer armed afresh is not pending (R67, R72). -/
theorem not_timerPending_pushed {x : Instance} {c : AsmConfig} (hc : x.cfg = some c) (hidle : 1 ≤ c.idle.toNat)
    (chunk : Bytes) : ¬ timerPending (pushed x c chunk) = true := by
  rw [timerPending_iff, pushed_cfg, hc]
  rintro ⟨-, -, c', hc', hle⟩
  obtain rfl := Option.some.inj hc'
  exact absurd (hidle.trans hle) (by simp)

/-- Settles O31: a push finds the buffer as it was or as the event left it. -/
theorem timerAndPushEitherOrder : Obligations.TimerAndPushEitherOrder := by
  intro s inst chunk x c hr hcap hidle harm helapsed
  have ⟨hx, hl, hc⟩ := hr
  constructor
  · have hy := updated_insts_self hx (pushed x c chunk) .ok .none
    exact ⟨_, _, exec_asmPush_of_runs hr chunk, hy, afterPush_pushed hl hc hcap chunk,
      exec_asmIdleFire_of_not_pending hy (not_timerPending_pushed hc hidle chunk)⟩
  · have hfire := exec_asmIdleFire_of_pending hx ((timerPending_iff x).2 ⟨hl, harm, c, hc, helapsed⟩)
    have hy := replaced_insts_self hx x.flushed
    have hpush := exec_asmPush_of_runs (x := x.flushed) ⟨hy, hl, hc⟩ chunk
    exact ⟨_, _, (execAll_cons hfire _).trans (execAll_cons hpush []), updated_insts_self hy _ _ _,
      afterPush_pushed (x := x.flushed) hl hc hcap chunk⟩

/-! ## The idle step (R77) -/

section Idle
variable {s : State}

theorem pendingTimer_of_none_pending
    (h : ∀ (k : Nat) (x : Instance), k < 256 → s.insts[k]? = some x → timerPending x = false) :
    s.pendingTimer = none := by
  rw [State.pendingTimer, Option.map_eq_none_iff, List.findIdx?_eq_none_iff]
  intro x hx
  obtain ⟨k, hk⟩ := List.mem_iff_getElem?.1 hx
  rw [List.getElem?_take] at hk
  split at hk
  next hlt => exact h k x hlt hk
  next => cases hk

theorem pendingTimer_of_first_pending {k : Nat} {x : Instance} (hk : k < 256) (hx : s.insts[k]? = some x)
    (hp : timerPending x = true)
    (hmin : ∀ (j : Nat) (y : Instance), j < k → s.insts[j]? = some y → timerPending y = false) :
    s.pendingTimer = some (BitVec.ofNat 8 k) := by
  obtain ⟨hlen, rfl⟩ := List.getElem?_eq_some_iff.1 hx
  rw [State.pendingTimer, Option.map_eq_some_iff]
  refine ⟨k, List.findIdx?_eq_some_iff_getElem.2 ⟨by simp; omega, by simpa using hp, fun j hj => ?_⟩, rfl⟩
  simpa using hmin j _ hj (List.getElem?_eq_getElem (hj.trans hlen))

end Idle

/-- Settles O7: an idle step is what `pendingTimer` asks for. -/
theorem idleStepFiresPendingTimer : Obligations.IdleStepFiresPendingTimer := by
  intro s hin
  have hstep : step s = runIdle s := by rw [step, hin]
  refine ⟨fun hnone => ?_, fun k x hk hx hp hmin => ?_⟩
  · rw [hstep, runIdle, pendingTimer_of_none_pending hnone]
  · rw [hstep, runIdle, pendingTimer_of_first_pending hk hx hp hmin]

end Sys2Proof.Machine

/-! PROOFS. The Codec's unit operations (spec/41_codec_units.md R82 to R96): what each answers, and the laws of the
sub-units behind them. -/

namespace Sys2Proof.Machine

/-! ## How a unit operation ends (R81) -/

section RespondExcept
variable {α : Type} {r : Except EncError α}

theorem respondExcept_of_ok {a : α} (h : r = .ok a) (s : State) (failed : Payload) (payload : α → Payload) :
    respondExcept s failed payload r = .next (Claims.answered s .ok (payload a)) := by
  subst h
  rfl

theorem respondExcept_of_error {e : EncError} (h : r = .error e) (s : State) (failed : Payload)
    (payload : α → Payload) :
    respondExcept s failed payload r = .next (Claims.answered s (.encError e) failed) := by
  subst h
  rfl

end RespondExcept

/-! ## The bias and the checksum (R84 to R87, R94) -/

/-- Settles O36: byte addition and subtraction are modulo 256. -/
theorem biasUnitsWrap : Obligations.BiasUnitsWrap := by
  intro s b
  refine ⟨⟨biasAdd b, rfl, ?_⟩, ⟨biasSub b, rfl, ?_⟩⟩
  · simp [biasAdd]
  · simp [biasSub, BitVec.toNat_sub, Nat.add_comm]

/-- Settles O37: the checksum of a concatenation is the sum of the two as bytes. -/
theorem byteArithmeticLaws : Obligations.ByteArithmeticLaws := by
  refine ⟨fun b => ⟨add_sub_cancel_right b _, sub_add_cancel b _⟩, fun s t => ?_⟩
  rw [checksum_add, BitVec.toNat_add]

/-- Settles O38: the unit answers `checksum`, which is the sum modulo 256. -/
theorem checksumGenSums : Obligations.ChecksumGenSums :=
  fun _ data => ⟨checksum data, rfl, checksum_toNat data⟩

/-- Two different bytes differ by less than 256, so changing one byte changes the sum modulo 256 (R87). -/
theorem sum_set_mod_ne {s : Bytes} {i : Nat} {v : Byte} (hi : i < s.length) (hv : byteAt s i ≠ v) :
    ((s.set i v).map BitVec.toNat).sum % 256 ≠ (s.map BitVec.toNat).sum % 256 := by
  have hsum := sum_set (v := v) hi
  have hne : (byteAt s i).toNat ≠ v.toNat := fun h => hv (BitVec.toNat_inj.1 h)
  have hold := (byteAt s i).isLt
  have hnew := v.isLt
  omega

/-- Settles O39: the unit answers `checksumOk`, and a one-byte change changes the sum it compares. -/
theorem checksumVerifyDetectsOneByte : Obligations.ChecksumVerifyDetectsOneByte := by
  intro s data cs
  refine ⟨⟨checksumOk data cs, rfl, checksumOk_iff data cs⟩, fun hsum i v hi hv => ?_⟩
  have hbad : checksumOk (data.set i v) cs = false :=
    Bool.eq_false_iff.2 fun h => sum_set_mod_ne hi hv (((checksumOk_iff _ _).1 h).trans hsum.symm)
  rw [← hbad]
  rfl

/-! ## The Property Table and the scale (R88, R89, R92) -/

theorem propByName_of_mem {t : List PropEntry} (ht : TableLegal t) {e : PropEntry} (he : e ∈ t) :
    propByName t e.name = .ok e.code := by
  rw [propByName, entryByName_of_mem ht he]

theorem propByName_of_absent {t : List PropEntry} {name : Str}
    (h : (∀ e ∈ t, e.name ≠ name) ∨ name = [] ∨ name = Str.errCode) :
    propByName t name = .error .unknownProperty := by
  rw [propByName, entryByName_none h]

theorem scaleByName_of_mem {t : List PropEntry} (ht : TableLegal t) {e : PropEntry} (he : e ∈ t) (raw : Nat) :
    scaleByName t raw e.name = .ok ((raw : Rat) * Claims.scale e) := by
  rw [scaleByName, entryByName_of_mem ht he, Claims.scale, ← scaleBy_eq]

theorem scaleByName_of_absent {t : List PropEntry} {name : Str} (h : ∀ e ∈ t, e.name ≠ name) (raw : Nat) :
    scaleByName t raw name = .error .unknownProperty := by
  rw [scaleByName, entryByName_none (.inl h)]

/-- Settles O40, by the hit and the miss of the lookup. -/
theorem propByNameLooksUp : Obligations.PropByNameLooksUp := by
  intro s name ht
  refine ⟨?_, fun habsent => respondExcept_of_error (propByName_of_absent habsent) s _ _⟩
  rintro e he rfl
  exact respondExcept_of_ok (propByName_of_mem ht he) s _ _

/-- Settles O41, by the hit and the miss of the lookup. -/
theorem propByCodeLooksUp : Obligations.PropByCodeLooksUp := by
  intro s code ht
  refine ⟨?_, fun habsent => ?_⟩
  · rintro e he rfl
    rw [exec, execUPropByCode, propByCode_of_mem ht he, Claims.scale, ← entryScale_eq]
    rfl
  · rw [exec, execUPropByCode, propByCode_none habsent]
    rfl

/-- Settles O45: the raw operand is the little-endian sum, and the entry of the name gives the scale. -/
theorem scaleIsExact : Obligations.ScaleIsExact := by
  intro s raw name ht
  refine ⟨?_, fun habsent => respondExcept_of_error (scaleByName_of_absent habsent _) s _ _⟩
  rintro e he rfl
  rw [← leNat_eq_sum]
  exact respondExcept_of_ok (scaleByName_of_mem ht he _) s _ _

/-! ## BCD pairs and values (R90, R91, R95) -/

theorem pairValue_of_isBcd {b : Byte} (h : Claims.IsBcd b) : pairValue b = 10 * (b.toNat / 16) + b.toNat % 16 :=
  if_pos h

theorem pairValue_of_not_isBcd {b : Byte} (h : ¬ Claims.IsBcd b) : pairValue b = Config.nonBcdPair b :=
  if_neg h

@[simp] theorem pairValue_zero : pairValue 0 = 0 := rfl

theorem pairValue_lt {b : Byte} (h : Claims.IsBcd b) : pairValue b < 100 := by
  obtain ⟨hhigh, hlow⟩ := id h
  rw [pairValue_of_isBcd h]
  omega

/-- The two digits of a BCD byte are the digits of its weight, so the weight tells BCD bytes apart (R95). -/
theorem pairValue_injOn {a b : Byte} (ha : Claims.IsBcd a) (hb : Claims.IsBcd b) (h : pairValue a = pairValue b) :
    a = b := by
  rw [pairValue_of_isBcd ha, pairValue_of_isBcd hb] at h
  obtain ⟨_, hlowa⟩ := ha
  obtain ⟨_, hlowb⟩ := hb
  exact BitVec.toNat_inj.1 (by omega)

/-- Settles O42, by the two cases of the weight. -/
theorem pairValueWeights : Obligations.PairValueWeights := by
  intro s b
  refine ⟨fun h => ?_, fun h => ?_⟩
  · rw [← pairValue_of_isBcd h]
    rfl
  · rw [← pairValue_of_not_isBcd h]
    rfl

theorem bcdValue_lt {v : Bytes} (h : ∀ b ∈ v, Claims.IsBcd b) : bcdValue v < 100 ^ v.length := by
  induction v with
  | nil => decide
  | cons b rest ih =>
    rw [List.forall_mem_cons] at h
    have hpair := pairValue_lt h.1
    have hrest := ih h.2
    rw [bcdValue, List.length_cons, pow_succ]
    omega

/-- Settles O43: the recursion is the weighted sum. -/
theorem bcdValueSums : Obligations.BcdValueSums := by
  intro s v
  rw [← bcdValue_eq_sum]
  exact ⟨rfl, bcdValue_lt⟩

/-- A weight below 100 and the rest of the value are its remainder and quotient by 100. -/
theorem bcdValue_injOn {v w : Bytes} (hv : ∀ b ∈ v, Claims.IsBcd b) (hw : ∀ b ∈ w, Claims.IsBcd b)
    (hlen : v.length = w.length) (h : bcdValue v = bcdValue w) : v = w := by
  induction v generalizing w with
  | nil => exact (List.length_eq_zero_iff.1 hlen.symm).symm
  | cons a v ih =>
    cases w with
    | nil => cases hlen
    | cons b w =>
      rw [List.forall_mem_cons] at hv hw
      have ha := pairValue_lt hv.1
      have hb := pairValue_lt hw.1
      simp only [bcdValue] at h
      rw [pairValue_injOn hv.1 hw.1 (by omega), ih hv.2 hw.2 (Nat.succ.inj hlen) (by omega)]

theorem bcdValue_replicate_zero (n : Nat) : bcdValue (List.replicate n 0) = 0 := by
  induction n with
  | zero => rfl
  | succ n ih => rw [List.replicate_succ, bcdValue, ih, pairValue_zero]

theorem bcdValue_append_zeros (v : Bytes) (n : Nat) : bcdValue (v ++ List.replicate n 0) = bcdValue v := by
  induction v with
  | nil => exact bcdValue_replicate_zero n
  | cons b rest ih => rw [List.cons_append, bcdValue, ih, bcdValue]

/-- Settles O44, by the two laws of the value. -/
theorem bcdValueInjective : Obligations.BcdValueInjective :=
  ⟨fun _ _ hv hw hlen h => bcdValue_injOn hv hw hlen h, bcdValue_append_zeros⟩

/-! ## The hexadecimal rendering (R93) -/

theorem hexDigit_eq_byteAt {n : Nat} (h : n < 16) : hexDigit n = byteAt (Str.ofChars
    ['0', '1', '2', '3', '4', '5', '6', '7', '8', '9', 'a', 'b', 'c', 'd', 'e', 'f']) n := by
  interval_cases n <;> rfl

/-- Settles O46: both nibbles are below 16, and their digits stand in the table of sixteen. -/
theorem hex2RendersByte : Obligations.Hex2RendersByte := by
  rintro s b digits rfl
  have hbyte := b.isLt
  rw [← hexDigit_eq_byteAt (by omega : b.toNat / 16 < 16), ← hexDigit_eq_byteAt (by omega : b.toNat % 16 < 16)]
  rfl

/-! ## Packing and unpacking a serial number (R82, R83) -/

theorem serialPack_of_overflow {digits : Bytes} (h : 12 < digits.length) :
    serialPack digits = .error .serialOverflow := if_pos h

theorem serialPack_of_invalidDigit {digits : Bytes} (hlen : digits.length ≤ 12) (h : ∃ d ∈ digits, 9 < d.toNat) :
    serialPack digits = .error .invalidDigit := by
  rw [serialPack, if_neg (Nat.not_lt.2 hlen), if_pos (by simpa using h)]

/-- Settles O32, by the three outcomes of `serialPack`. -/
theorem serialPackPacksDigits : Obligations.SerialPackPacksDigits := by
  intro s digits
  refine ⟨fun hvalid => ?_, fun hlen => respondExcept_of_error (serialPack_of_overflow hlen) s _ _,
    fun hlen hbad => respondExcept_of_error (serialPack_of_invalidDigit hlen hbad) s _ _⟩
  obtain ⟨ser, hser, hbytes⟩ := serialPack_of_valid hvalid
  exact ⟨ser.toList, respondExcept_of_ok hser s _ _, rfl, hbytes⟩

/-- Settles O33: leaving out the groups "00" leaves out the zero bytes. -/
theorem serialUnpackRenders : Obligations.SerialUnpackRenders := by
  intro s ser
  rw [exec, execUSerialUnpack, serialUnpack_eq]
  rfl

/-! ## The digits of a field (R83, R96)

A field and the digits it was packed from are compared as digit sequences: `digitPairs` reads two digits from each
byte, packing is the statement that the field reads as the padded digits, and unpacking drops leading zero pairs. -/

/-- The two nibbles of a byte as digits, the more significant one first (R39). -/
def digitPair (b : Byte) : Bytes := [BitVec.ofNat 8 (highNibble b), BitVec.ofNat 8 (lowNibble b)]

/-- The digits of a byte sequence, two of each byte. -/
def digitPairs (s : Bytes) : Bytes := s.flatMap digitPair

@[simp] theorem digitPairs_nil : digitPairs [] = [] := rfl

@[simp] theorem digitPairs_cons (b : Byte) (s : Bytes) : digitPairs (b :: s) = digitPair b ++ digitPairs s := rfl

@[simp] theorem digitPairs_length (s : Bytes) : (digitPairs s).length = 2 * s.length := by
  induction s with
  | nil => rfl
  | cons b rest ih => simp [ih, digitPair]; omega

/-- Packing the two digits of a byte gives the byte. -/
theorem packPair_digitPair (b : Byte) :
    packPair (BitVec.ofNat 8 (highNibble b)) (BitVec.ofNat 8 (lowNibble b)) = b := by
  revert b
  decide

theorem digitPair_packPair {hi lo : Byte} (hhi : hi.toNat ≤ 9) (hlo : lo.toNat ≤ 9) :
    digitPair (packPair hi lo) = [hi, lo] := by
  have hpair := packPair_toNat hhi hlo
  simp only [digitPair, highNibble, lowNibble, hpair, ← BitVec.toNat_inj, List.cons.injEq, and_true,
    BitVec.toNat_ofNat]
  omega

theorem digitPair_eq_zeros_iff {b : Byte} : digitPair b = [0, 0] ↔ b = 0 := by
  constructor
  · intro h
    simp only [digitPair, List.cons.injEq, and_true] at h
    rw [← packPair_digitPair b, h.1, h.2]
    rfl
  · rintro rfl
    rfl

theorem digitPair_le {b d : Byte} (hb : Claims.IsBcd b) (hd : d ∈ digitPair b) : d.toNat ≤ 9 := by
  obtain ⟨hhigh, hlow⟩ := hb
  simp only [digitPair, List.mem_cons, List.not_mem_nil, or_false] at hd
  rcases hd with rfl | rfl <;> simp only [BitVec.toNat_ofNat, highNibble, lowNibble] <;> omega

/-- A BCD byte is rendered as the characters of its two digits (R83). -/
theorem hex2_of_isBcd {b : Byte} (h : Claims.IsBcd b) : hex2 b = Claims.digitChars (digitPair b) := by
  have hdigit {n : Nat} (hn : n ≤ 9) : hexDigit n = BitVec.ofNat 8 n + 48 := by interval_cases n <;> rfl
  obtain ⟨hhigh, hlow⟩ := h
  rw [hex2, hdigit (n := highNibble b) hhigh, hdigit (n := lowNibble b) hlow]
  rfl

theorem digitChars_append (s t : Bytes) : Claims.digitChars (s ++ t) = Claims.digitChars s ++ Claims.digitChars t :=
  List.map_append

theorem digitChars_injective : Function.Injective Claims.digitChars :=
  List.map_injective_iff.2 (add_left_injective 48)

/-- The padded digits of at most 12, one by one (R82). -/
theorem padded_eq_paddedDigits {digits : Bytes} (h : digits.length ≤ 12) :
    List.replicate (12 - digits.length) 0 ++ digits = (List.range 12).map (paddedDigit digits) := by
  have hlen : (List.replicate (12 - digits.length) (0 : Byte) ++ digits).length = 12 := by simp; omega
  refine List.ext_getElem (by rw [hlen]; rfl) fun i hi _ => ?_
  rw [List.getElem_map, List.getElem_range, paddedDigit, byteAt_eq_getElem hi]

/-- Digits pack to a field exactly when they are valid and the field, read from its most significant byte, holds the
padded digits (R82). -/
theorem serialPack_ok_iff_digitPairs {digits : Bytes} {ser : Serial} :
    serialPack digits = .ok ser ↔ Claims.ValidDigits digits ∧
      digitPairs ser.toList.reverse = List.replicate (12 - digits.length) 0 ++ digits := by
  rw [serialPack_ok_iff]
  refine and_congr_right fun ⟨hlen, hdig⟩ => ?_
  rw [padded_eq_paddedDigits hlen]
  have hpair (i j : Nat) : digitPair (packPair (paddedDigit digits i) (paddedDigit digits j)) =
      [paddedDigit digits i, paddedDigit digits j] :=
    digitPair_packPair (paddedDigit_le hdig i) (paddedDigit_le hdig j)
  constructor
  · rintro rfl
    simp [Serial.toList, hpair, List.range_succ]
  · intro h
    obtain ⟨s0, s1, s2, s3, s4, s5⟩ := ser
    simp only [Serial.toList, List.reverse_cons, List.reverse_nil, List.nil_append, List.cons_append,
      digitPairs_cons, digitPair, digitPairs_nil, List.append_nil, List.range_succ, List.range_zero, List.map_cons,
      List.map_nil, List.cons.injEq, and_true] at h
    simp only [← h, packPair_digitPair]

/-- Leading zero bytes are an even number of leading zero digits, and what is left does not begin with two. -/
theorem digitPairs_dropWhile_zero (s : Bytes) :
    (∃ m, digitPairs s = List.replicate (2 * m) 0 ++ digitPairs (s.dropWhile (· == 0))) ∧
      ¬ ([0, 0] : Bytes) <+: digitPairs (s.dropWhile (· == 0)) := by
  induction s with
  | nil => exact ⟨⟨0, rfl⟩, by simp⟩
  | cons b rest ih =>
    by_cases hb : b = 0
    · subst hb
      obtain ⟨⟨m, hm⟩, hrest⟩ := ih
      exact ⟨⟨m + 1, congrArg ([0, 0] ++ ·) hm⟩, hrest⟩
    · rw [List.dropWhile_cons_of_neg (by simpa using hb)]
      refine ⟨⟨0, rfl⟩, fun hzeros => hb (digitPair_eq_zeros_iff.1 ?_)⟩
      have hpair : digitPair b <+: digitPairs (b :: rest) := List.prefix_append _ _
      exact (List.prefix_of_prefix_length_le hpair hzeros (le_refl 2)).eq_of_length rfl

/-- What is left of a digit sequence without its leading zero pairs does not depend on how many are split off (R83). -/
theorem eq_of_zeroPairs_append_eq {m n : Nat} {x y : Bytes} (hx : ¬ ([0, 0] : Bytes) <+: x)
    (hy : ¬ ([0, 0] : Bytes) <+: y)
    (h : List.replicate (2 * m) 0 ++ x = List.replicate (2 * n) 0 ++ y) : x = y := by
  induction m generalizing n with
  | zero =>
    cases n with
    | zero => exact h
    | succ n => exact absurd ⟨_, h.symm⟩ hx
  | succ m ih =>
    cases n with
    | zero => exact absurd ⟨_, h⟩ hy
    | succ n => exact ih (List.append_cancel_left (as := [0, 0]) h)

/-- A BCD field is rendered as its digits without the leading zero pairs (R83). -/
theorem serialUnpack_of_isBcd {ser : Serial} (h : ∀ b ∈ ser.toList, Claims.IsBcd b) :
    serialUnpack ser = Claims.digitChars (digitPairs (ser.toList.reverse.dropWhile (· == 0))) := by
  rw [serialUnpack_eq, digitPairs, Claims.digitChars, List.map_flatMap, List.flatten_eq_flatMap, List.flatMap_map]
  refine List.flatMap_congr fun b hb => hex2_of_isBcd (h b ?_)
  exact List.mem_reverse.1 ((List.dropWhile_sublist _).mem hb)

theorem isBcd_packPair {hi lo : Byte} (hhi : hi.toNat ≤ 9) (hlo : lo.toNat ≤ 9) :
    Claims.IsBcd (packPair hi lo) := by
  have hpair := packPair_toNat hhi hlo
  unfold Claims.IsBcd
  omega

/-- Every byte of a packed field is BCD (R82). -/
theorem isBcd_of_serialPack {digits : Bytes} {ser : Serial} (h : serialPack digits = .ok ser) :
    ∀ b ∈ ser.toList, Claims.IsBcd b := by
  obtain ⟨⟨-, hdig⟩, rfl⟩ := (serialPack_ok_iff digits ser).1 h
  have hpair (i j : Nat) : Claims.IsBcd (packPair (paddedDigit digits i) (paddedDigit digits j)) :=
    isBcd_packPair (paddedDigit_le hdig i) (paddedDigit_le hdig j)
  simp [Serial.toList, hpair]

/-- Settles O34: the padding and the zero pairs that unpacking leaves out both stand before the digits, so that
unpacking gives them back exactly when the padding is made of pairs and the digits begin with none. -/
theorem serialRoundTripExactlyWhenEven : Obligations.SerialRoundTripExactlyWhenEven := by
  intro digits ser hpack
  obtain ⟨⟨hlen, -⟩, hpadded⟩ := serialPack_ok_iff_digitPairs.1 hpack
  obtain ⟨⟨m, hm⟩, hleft⟩ := digitPairs_dropWhile_zero ser.toList.reverse
  rw [serialUnpack_of_isBcd (isBcd_of_serialPack hpack), digitChars_injective.eq_iff]
  constructor
  · intro hback
    rw [← hback, digitPairs_length]
    exact ⟨Nat.mul_mod_right 2 _, hleft⟩
  · rintro ⟨heven, hdigits⟩
    rw [hm, show 12 - digits.length = 2 * (6 - digits.length / 2) by omega] at hpadded
    exact eq_of_zeroPairs_append_eq hleft hdigits hpadded

/-- Settles O35: the digits of the field without its leading zero pairs, which packing pads with those zeros again. -/
theorem serialFieldRoundTrip : Obligations.SerialFieldRoundTrip := by
  intro ser hbcd
  refine ⟨_, serialUnpack_of_isBcd hbcd, serialPack_ok_iff_digitPairs.2 ?_⟩
  obtain ⟨⟨m, hm⟩, -⟩ := digitPairs_dropWhile_zero ser.toList.reverse
  have hlen : 12 = 2 * m + (digitPairs (ser.toList.reverse.dropWhile (· == 0))).length := by
    rw [← List.length_replicate (n := 2 * m) (a := (0 : Byte)), ← List.length_append, ← hm]
    rfl
  refine ⟨⟨by omega, fun d hd => ?_⟩, ?_⟩
  · obtain ⟨b, hb, hd⟩ := List.mem_flatMap.1 hd
    exact digitPair_le (hbcd b (List.mem_reverse.1 ((List.dropWhile_sublist _).mem hb))) hd
  · rw [hm]
    congr 2
    omega

end Sys2Proof.Machine

/-! PROOFS. The Codec's encode (spec/42_encode.md R100): where it fails, and what a failure leaves (R128, R130, R131). -/

namespace Sys2Proof.Machine

section EncodeFailures
variable {table : List PropEntry} {digits : Bytes} {name : Str} {e : EncError}

/-- The serial number is packed first, so its error is the encode's, whatever the name (R130). -/
theorem encodeFrame_of_serialPack_error (h : serialPack digits = .error e) (cmd : Byte) :
    encodeFrame table digits cmd name = .error e := by
  rw [encodeFrame, h]

/-- A serial number that packs leaves the name as the one cause of failure (R100, R130). -/
theorem encodeFrame_of_absent {ser : Serial} (hser : serialPack digits = .ok ser) (h : ∀ x ∈ table, x.name ≠ name)
    (cmd : Byte) : encodeFrame table digits cmd name = .error .unknownProperty := by
  simp only [encodeFrame, hser, propByName_of_absent (.inl h)]

/-- A failed encode answers its error with the empty byte sequence and leaves one record of it (R128, R131). -/
theorem exec_codecEncode_of_error {s : State} {cmd : Byte} (h : encodeFrame s.prop digits cmd name = .error e) :
    exec (.codecEncode digits cmd name) s =
      .next { s with diag := s.diag ++ [⟨e⟩], responses := s.responses ++ [⟨.encError e, .bytes []⟩] } := by
  rw [exec, execCodecEncode, h]
  rfl

end EncodeFailures

/-- Settles O48: each of the three hypotheses fixes the error of `encodeFrame`, and an error fixes the next state. -/
theorem encodeFailuresInOrder : Obligations.EncodeFailuresInOrder := by
  intro s digits cmd name e hfail
  apply exec_codecEncode_of_error
  obtain ⟨hlen, rfl⟩ | ⟨hlen, hbad, rfl⟩ | ⟨hvalid, habsent, rfl⟩ := hfail
  · exact encodeFrame_of_serialPack_error (serialPack_of_overflow hlen) cmd
  · exact encodeFrame_of_serialPack_error (serialPack_of_invalidDigit hlen hbad) cmd
  · obtain ⟨ser, hser, -⟩ := serialPack_of_valid hvalid
    exact encodeFrame_of_absent hser habsent cmd

end Sys2Proof.Machine

/-! PROOFS. The Codec's decode (spec/43_decode.md R105 to R122, R152): what each check before the command dispatch ends
in, what each arm answers, what an encoded frame decodes to, and what one changed byte does. -/

namespace Sys2Proof.Machine

/-! ## The first and the last divider, and how many there are (R106) -/

/-- The first and the last index of a byte differ exactly when it occurs more than once. -/
theorem first_lt_last_iff {s : Bytes} {b : Byte} {i j : Nat} (hi : first s b = some i) (hj : last s b = some j) :
    i < j ↔ 2 ≤ s.count b := by
  induction s generalizing i j with
  | nil => simp [first] at hi
  | cons x rest ih =>
    rw [first] at hi
    rw [last] at hj
    by_cases hx : x = b
    · rw [if_pos hx] at hi
      obtain rfl := Option.some.inj hi
      rw [hx, List.count_cons_self]
      cases hl : last rest b with
      | none =>
        have hcount : rest.count b = 0 := List.count_eq_zero.2 (last_eq_none_iff.1 hl)
        rw [hl] at hj
        obtain rfl : 0 = j := by simpa [hx] using hj
        omega
      | some k =>
        have hcount : 0 < rest.count b :=
          List.count_pos_iff.2 (by_contra fun hb => by simp [last_eq_none_iff.2 hb] at hl)
        rw [hl] at hj
        obtain rfl := Option.some.inj hj
        omega
    · rw [if_neg hx] at hi
      obtain ⟨i', hi', rfl⟩ := Option.map_eq_some_iff.1 hi
      cases hl : last rest b with
      | none => simp [hl, hx] at hj
      | some k =>
        rw [hl] at hj
        obtain rfl := Option.some.inj hj
        rw [List.count_cons_of_ne hx, Nat.add_lt_add_iff_right, ih hi' hl]

theorem exists_first_last_of_mem {s : Bytes} {b : Byte} (h : b ∈ s) :
    ∃ i j, first s b = some i ∧ last s b = some j := by
  obtain ⟨i, hi⟩ := Option.ne_none_iff_exists'.1 (mt first_eq_none_iff.1 (not_not_intro h))
  obtain ⟨j, hj⟩ := Option.ne_none_iff_exists'.1 (mt last_eq_none_iff.1 (not_not_intro h))
  exact ⟨i, j, hi, hj⟩

/-! ## What `LOCATE` answers (R106) -/

/-- The positions of the statements are the answers of the three searches. -/
theorem positions_iff {f : Bytes} {start div stop : Nat} :
    Claims.Positions f start div stop ↔ start < div ∧ first f divider = some start ∧ last f divider = some div ∧
      first f terminator = some stop := by
  rw [first_eq_some_iff, last_eq_some_iff, first_eq_some_iff]
  constructor
  · rintro ⟨hlt, hd, ht, hs, hs', hd', hd'', ht', ht''⟩
    exact ⟨hlt, ⟨by omega, hs, hs'⟩, ⟨hd, hd', hd''⟩, ht, ht', ht''⟩
  · rintro ⟨hlt, ⟨-, hs, hs'⟩, ⟨hd, hd', hd''⟩, ht, ht', ht''⟩
    exact ⟨hlt, hd, ht, hs, hs', hd', hd'', ht', ht''⟩

section Locate
variable {f : Bytes}

theorem locate_of_positions {start div stop : Nat} (h : Claims.Positions f start div stop) :
    locate f = .ok ⟨start, div, stop⟩ := by
  obtain ⟨hlt, hstart, hdiv, hstop⟩ := positions_iff.1 h
  exact (locate_ok_iff f _).2 ⟨hstart, hdiv, hlt.ne', hstop⟩

theorem locate_of_no_divider (h : divider ∉ f) : locate f = .error .noDivider := by
  rw [locate, first_eq_none_iff.2 h]

theorem locate_of_one_divider (h : f.count divider = 1) : locate f = .error .oneDivider := by
  obtain ⟨i, j, hi, hj⟩ := exists_first_last_of_mem (List.count_pos_iff.1 (h ▸ Nat.one_pos))
  have hle := first_le_last hi hj
  have hlt := first_lt_last_iff hi hj
  obtain rfl : j = i := by omega
  simp only [locate, hi, hj, if_true]

theorem locate_of_no_terminator (hdiv : 2 ≤ f.count divider) (hstop : terminator ∉ f) :
    locate f = .error .noTerminator := by
  obtain ⟨i, j, hi, hj⟩ := exists_first_last_of_mem (List.count_pos_iff.1 (by omega : 0 < f.count divider))
  have hlt := (first_lt_last_iff hi hj).2 hdiv
  simp only [locate, hi, hj, if_neg hlt.ne', first_eq_none_iff.2 hstop]

end Locate

/-! ## The checks before the dispatch, in order (R107, R109, R110, R130) -/

section Header
variable {f : Bytes} {p : Located} {sub : Structural}

theorem header_of_locate_error (h : locate f = .error sub) : header f = .error (Claims.structural sub) := by
  rw [header, h]
  rfl

theorem header_of_bad_order (h : locate f = .ok p) (hord : p.stop ≤ p.start + 1) :
    header f = .error (Claims.structural .order) := by
  have hpre : precheck p = false := decide_eq_false (Nat.not_lt.2 hord)
  simp only [header, h, hpre]
  rfl

theorem header_of_mismatch (h : locate f = .ok p) (hord : p.start + 1 < p.stop)
    (hsum : ¬ Claims.SumOk f p.start p.stop) : header f = .error Claims.mismatch := by
  have hpre : precheck p = true := decide_eq_true hord
  have hver : verify f p = false := Bool.eq_false_iff.2 (mt (checksumOk_iff _ _).1 hsum)
  simp only [header, h, hpre, hver]
  rfl

theorem header_of_sumOk (h : locate f = .ok p) (hord : p.start + 1 < p.stop) (hsum : Claims.SumOk f p.start p.stop) :
    header f = (fieldcheck p).elim (.ok p) fun sub => .error (Claims.structural sub) := by
  have hpre : precheck p = true := decide_eq_true hord
  have hver : verify f p = true := (checksumOk_iff _ _).2 hsum
  simp only [header, h, hpre, hver]
  cases fieldcheck p <;> rfl

theorem fieldcheck_of_bad_serial (h : p.div ≠ p.start + 7) : fieldcheck p = some .serialField := if_pos h

theorem fieldcheck_of_short (hdiv : p.div = p.start + 7) (h : p.stop ≤ p.div + 2) : fieldcheck p = some .short := by
  rw [fieldcheck, if_neg (not_not_intro hdiv), if_pos (Nat.not_lt.2 h)]

/-- A frame that does not reach the dispatch is a mismatch or has a structural result (R106 to R110). -/
theorem header_error_cases {r : DecodeResult} (h : header f = .error r) :
    r = Claims.mismatch ∨ ∃ sub, r = Claims.structural sub := by
  cases hl : locate f with
  | error sub => exact .inr ⟨sub, Except.error.inj (h.symm.trans (header_of_locate_error hl))⟩
  | ok p =>
    by_cases hord : p.start + 1 < p.stop
    · by_cases hsum : Claims.SumOk f p.start p.stop
      · rw [header_of_sumOk hl hord hsum] at h
        cases hfield : fieldcheck p with
        | none => simp [hfield] at h
        | some sub =>
          rw [hfield] at h
          exact .inr ⟨sub, (Except.error.inj h).symm⟩
      · exact .inl (Except.error.inj (h.symm.trans (header_of_mismatch hl hord hsum)))
    · exact .inr ⟨.order, Except.error.inj (h.symm.trans (header_of_bad_order hl (Nat.not_lt.1 hord)))⟩

end Header

/-! ## A decode that ends before the dispatch (R106 to R110) -/

theorem exec_codecDecode_of_header_error {f : Bytes} {r : DecodeResult} (h : header f = .error r) (s : State) :
    exec (.codecDecode f) s = .next (Claims.answered s .ok (.decoded r)) := by
  rw [exec, execCodecDecode, decodeFrame_of_error h]
  rfl

theorem exec_codecDecode_of_locate_error {f : Bytes} {sub : Structural} (h : locate f = .error sub) (s : State) :
    exec (.codecDecode f) s = .next (Claims.answered s .ok (.decoded (Claims.structural sub))) :=
  exec_codecDecode_of_header_error (header_of_locate_error h) s

/-- A terminator before or right after the first divider fails the order check (R107). -/
theorem exec_codecDecode_of_bad_order {f : Bytes} {start div stop : Nat} (hpos : Claims.Positions f start div stop)
    (hord : stop ≤ start + 1) (s : State) :
    exec (.codecDecode f) s = .next (Claims.answered s .ok (.decoded (Claims.structural .order))) :=
  exec_codecDecode_of_header_error (header_of_bad_order (locate_of_positions hpos) hord) s

/-- Settles O50: the first three results are those of the searches, the fourth is the order check's. -/
theorem decodeLocates : Obligations.DecodeLocates := by
  intro s f sub h
  obtain ⟨hdiv, rfl⟩ | ⟨hdiv, rfl⟩ | ⟨hdiv, hstop, rfl⟩ | ⟨⟨start, div, stop, hpos, hord⟩, rfl⟩ := h
  · exact exec_codecDecode_of_locate_error (locate_of_no_divider hdiv) s
  · exact exec_codecDecode_of_locate_error (locate_of_one_divider hdiv) s
  · exact exec_codecDecode_of_locate_error (locate_of_no_terminator hdiv hstop) s
  · exact exec_codecDecode_of_bad_order hpos hord s

/-- Settles O51: the checksum is compared before any field is read. -/
theorem decodeDetectsMismatch : Obligations.DecodeDetectsMismatch := by
  intro s f start div stop hpos hord hsum
  exact exec_codecDecode_of_header_error (header_of_mismatch (locate_of_positions hpos) hord hsum) s

/-! ## The arms of the command dispatch (R112) -/

/-- Command codes 91 and B1 take the response arm (R112, R113). -/
theorem exec_codecDecode_of_response {f : Bytes} {p : Located} (h : header f = .ok p)
    (hc : byteAt f (p.div + 1) = 0x91 ∨ byteAt f (p.div + 1) = 0xB1) (s : State) :
    exec (.codecDecode f) s = respondDecoded s (response91 s.prop f p) := by
  rw [exec_codecDecode_of_header h, dispatchCommand, commandByte, if_pos hc]

/-- Settles O52: `FIELDCHECK` for the dividers and the command byte, then the response arm's own length checks. -/
theorem decodeChecksFields : Obligations.DecodeChecksFields := by
  intro s f start div stop sub hpos hord hsum h
  have hheader := header_of_sumOk (locate_of_positions hpos) hord hsum
  obtain ⟨hdiv, rfl⟩ | ⟨hdiv, hshort, rfl⟩ | ⟨hdiv, hstop, hc, h⟩ := h
  · rw [fieldcheck_of_bad_serial hdiv] at hheader
    exact exec_codecDecode_of_header_error hheader s
  · rw [fieldcheck_of_short hdiv hshort] at hheader
    exact exec_codecDecode_of_header_error hheader s
  · have hdisp : Claims.Dispatched f start div stop := ⟨hpos, hord, hsum, hdiv, hstop⟩
    have hrow := exec_codecDecode_of_response (p := ⟨start, div, stop⟩) (header_ok_iff_dispatched.2 hdisp) hc s
    obtain ⟨hnone, hbad, -, -⟩ := responseRow_outcomes hdisp hrow rfl
    obtain ⟨hshort, rfl⟩ | ⟨hlong, hlen, rfl⟩ := h
    · exact hnone hshort
    · exact hbad hlong hlen

/-- A dispatched frame decodes as the wire row its command byte names runs (R54, R112). -/
theorem exec_codecDecode_of_row {f : Bytes} {start div stop : Nat} {i : Instr} {s : State} {r : Result}
    (h : Claims.Dispatched f start div stop) (hi : wireInstr (byteAt f (div + 1)) f = i) (hrow : exec i s = r) :
    exec (.codecDecode f) s = r := by
  rw [← exec_wireInstr_of_header (p := ⟨start, div, stop⟩) (header_ok_iff_dispatched.2 h) s, commandByte, hi, hrow]

theorem wireInstr_of_other {c : Byte} (f : Bytes) (h11 : c ≠ 0x11) (h91 : c ≠ 0x91) (hB1 : c ≠ 0xB1) (hD1 : c ≠ 0xD1) :
    wireInstr c f = .wireOtherCommand f := by
  rw [wireInstr, if_neg h11, if_neg h91, if_neg hB1, if_neg hD1]

/-- Settles O53: the rows of 91 and B1 answer the record, and the decode runs as the row of its command byte. -/
theorem decodeReadResponse : Obligations.DecodeReadResponse := by
  intro s f start div stop len e ht he hdisp hc hresp
  obtain ⟨-, -, hrows⟩ := wireRowsOffTheirCommand.1 s f start div stop hdisp
  obtain ⟨-, -, h91, -⟩ := hrows (.wireReadResponse f) (by simp) len hresp.1
  obtain ⟨-, -, hB1, -⟩ := hrows (.wireReadResponseMore f) (by simp) len hresp.1
  refine ⟨_, rfl, ?_, fun _ => h91 e ht he hresp, fun _ => hB1 e ht he hresp⟩
  rcases hc with hc | hc
  · exact exec_codecDecode_of_row hdisp (by rw [hc]; rfl) (h91 e ht he hresp)
  · exact exec_codecDecode_of_row hdisp (by rw [hc]; rfl) (hB1 e ht he hresp)

/-- Settles O54: a code no entry has is no entry's response. -/
theorem decodeUnknownProperty : Obligations.DecodeUnknownProperty := by
  intro s f start div stop len hdisp hc hlen h4 hend hcode
  have hrow := exec_codecDecode_of_response (p := ⟨start, div, stop⟩) (header_ok_iff_dispatched.2 hdisp) hc s
  obtain ⟨-, -, -, hnone⟩ := responseRow_outcomes hdisp hrow hlen
  exact hnone h4 hend fun e he ⟨_, _, _, hslice⟩ => hcode e he hslice

/-- Settles O55: the row of D1 answers the record, and a command byte before the checksum puts the byte read behind the
last divider. -/
theorem decodeErrorResponse : Obligations.DecodeErrorResponse := by
  intro s f start div stop hdisp hc
  obtain ⟨-, hD1, -⟩ := wireRowsOffTheirCommand.1 s f start div stop hdisp
  obtain ⟨-, -, hin, -⟩ := header_bounds (p := ⟨start, div, stop⟩) (header_ok_iff_dispatched.2 hdisp)
  exact ⟨hin, _, rfl, exec_codecDecode_of_row hdisp (by rw [hc]; rfl) hD1, hD1⟩

/-- Settles O56: the rows of 11 and of the other commands answer one record. -/
theorem decodeUnknownCommand : Obligations.DecodeUnknownCommand := by
  intro s f start div stop hdisp h91 hB1 hD1
  obtain ⟨hrows, -, -⟩ := wireRowsOffTheirCommand.1 s f start div stop hdisp
  have h11 := hrows (.wireReadRequest f) (by simp)
  have hother := hrows (.wireOtherCommand f) (by simp)
  refine ⟨_, rfl, ?_, fun _ => h11, fun _ => hother⟩
  by_cases hc : byteAt f (div + 1) = 0x11
  · exact exec_codecDecode_of_row hdisp (by rw [hc]; rfl) h11
  · exact exec_codecDecode_of_row hdisp (wireInstr_of_other f hc h91 hB1 hD1) hother

/-! ## Every outcome of a decode (R105, R120, R129) -/

/-- The records a decode can answer, by kind: two without a located frame's fields, four of a dispatched frame. -/
inductive DecodeOutcome (t : List PropEntry) (f : Bytes) : DecodeResult → Prop
  | mismatch : DecodeOutcome t f Claims.mismatch
  | structural (sub : Structural) : DecodeOutcome t f (Claims.structural sub)
  | unknownCommand {start div stop : Nat} (h : Claims.Dispatched f start div stop) :
    DecodeOutcome t f
      (Claims.record .unknownCommand f start div false Str.errCode (.text (Str.ofChars ['-', '1'])))
  | errorResponse {start div stop : Nat} (h : Claims.Dispatched f start div stop) :
    DecodeOutcome t f
      (Claims.record .errorResponse f start div false Str.errCode (.text (hex2 (byteAt f (stop - 3)))))
  | unknownProperty {start div stop : Nat} (h : Claims.Dispatched f start div stop) :
    DecodeOutcome t f (Claims.record .unknownProperty f start div false [] (.num 0))
  | ok {start div stop len : Nat} {e : PropEntry} (h : Claims.Dispatched f start div stop) (he : e ∈ t)
      (hresp : Claims.ResponseOf f div stop len e) :
    DecodeOutcome t f (Claims.record .ok f start div true e.name (.num (Claims.readValue f div len e)))

/-- What a lookup by code finds has that code (R89). -/
theorem propByCode_code {t : List PropEntry} {code : Code} {e : PropEntry} (h : propByCode t code = some e) :
    e.code = code := by
  simpa using List.find?_some h

section Outcomes
variable {f : Bytes} {p : Located} (t : List PropEntry)

/-- The response arm: its two structural results, an entry's response, or a code no entry has (R113 to R116). -/
theorem response91_outcome (h : Claims.Dispatched f p.start p.div p.stop) :
    DecodeOutcome t f (response91 t f p) := by
  have ⟨⟨_, _, hinside, _⟩, _⟩ := h
  by_cases hlong : p.div + 3 < p.stop
  · by_cases hlen : (byteAt f (p.div + 2)).toNat < 4 ∨ p.div + 3 + (byteAt f (p.div + 2)).toNat ≠ p.stop - 1
    · rw [response91_of_bad_length t hlong hlen]
      exact .structural .length
    · obtain ⟨h4, hend⟩ := not_or.1 hlen
      rw [response91_of_length t h rfl (Nat.not_lt.1 h4) (not_not.1 hend)]
      cases he : propByCode t (codeField f p) with
      | none => exact .unknownProperty h
      | some e =>
        exact .ok h (propByCode_mem he) ⟨rfl, Nat.not_lt.1 h4, not_not.1 hend,
          (codeField_eq_iff (by omega) _).1 (propByCode_code he).symm⟩
  · rw [response91_of_no_length t (Nat.not_lt.1 hlong)]
    exact .structural .short

/-- Each arm of the dispatch answers one of the outcomes (R112). -/
theorem dispatchCommand_outcome (h : Claims.Dispatched f p.start p.div p.stop) :
    DecodeOutcome t f (dispatchCommand t f p) := by
  rw [dispatchCommand]
  split
  · exact response91_outcome t h
  · split
    · rw [errorResponse_of_dispatched h]
      exact .errorResponse h
    · rw [unknownCommand_of_dispatched h]
      exact .unknownCommand h

/-- A decode ends in one of the outcomes, on any bytes (R105, R120). -/
theorem decodeFrame_outcome : DecodeOutcome t f (decodeFrame t f) := by
  cases hh : header f with
  | error r =>
    rw [decodeFrame_of_error hh]
    obtain rfl | ⟨sub, rfl⟩ := header_error_cases hh
    · exact .mismatch
    · exact .structural sub
  | ok p =>
    rw [decodeFrame_of_header hh]
    exact dispatchCommand_outcome t (header_ok_iff_dispatched.1 hh)

end Outcomes

/-- Settles O49: the record is `decodeFrame`'s, and each outcome has the fields of its kind. -/
theorem decodeAlwaysAnswersRecord : Obligations.DecodeAlwaysAnswersRecord := by
  intro s f
  refine ⟨decodeFrame s.prop f, rfl, ?_⟩
  have houtcome := decodeFrame_outcome s.prop (f := f)
  generalize decodeFrame s.prop f = r at houtcome
  cases houtcome with
  | mismatch => exact rfl
  | structural sub => exact ⟨sub, rfl⟩
  | unknownCommand _ => exact ⟨rfl, rfl, rfl, rfl⟩
  | errorResponse h => exact ⟨rfl, rfl, rfl, _, _, _, h, rfl⟩
  | unknownProperty _ => exact ⟨rfl, rfl, rfl, rfl⟩
  | ok h he hresp => exact ⟨rfl, rfl, _, _, _, _, _, h, he, hresp, rfl, rfl⟩

/-! ## What an encoded frame decodes to (R122) -/

/-- What a lookup by name finds is an entry of that name (R88). -/
theorem propByName_ok_mem {t : List PropEntry} {name : Str} {code : Code} (h : propByName t name = .ok code) :
    ∃ e ∈ t, e.name = name ∧ e.code = code := by
  rw [propByName] at h
  cases he : entryByName t name with
  | none => simp [he] at h
  | some e =>
    rw [he] at h
    rw [entryByName] at he
    split at he
    · simp at he
    · exact ⟨e, List.mem_of_find?_eq_some he, by simpa using List.find?_some he, Except.ok.inj h⟩

/-- A successful encode built the frame of packed digits and of an entry of the name (R100). -/
theorem encodeFrame_ok_cases {t : List PropEntry} {digits : Bytes} {cmd : Byte} {name : Str} {f : Bytes}
    (h : encodeFrame t digits cmd name = .ok f) :
    ∃ ser, ∃ e ∈ t, serialPack digits = .ok ser ∧ e.name = name ∧ f = frameOfBody (frameBody ser cmd e.code) := by
  rw [encodeFrame] at h
  cases hser : serialPack digits with
  | error err => simp [hser] at h
  | ok ser =>
    cases hname : propByName t name with
    | error err => simp [hser, hname] at h
    | ok code =>
      simp only [hser, hname, Except.ok.injEq] at h
      obtain ⟨e, he, hn, rfl⟩ := propByName_ok_mem hname
      exact ⟨ser, e, he, rfl, hn, h.symm⟩

/-- An encode answered OK with a frame is one that succeeded (R100, R128). -/
theorem encodeFrame_of_answered {s : State} {digits : Bytes} {cmd : Byte} {name : Str} {f : Bytes}
    (h : exec (.codecEncode digits cmd name) s = .next (Claims.answered s .ok (.bytes f))) :
    encodeFrame s.prop digits cmd name = .ok f := by
  cases he : encodeFrame s.prop digits cmd name with
  | error e =>
    rw [exec_codecEncode_of_error he] at h
    simp [Claims.answered] at h
  | ok g =>
    rw [exec, execCodecEncode, he] at h
    simpa [Claims.answered, State.answer] using h

theorem byteAt_mem_slice {s : Bytes} {a b k : Nat} (ha : a ≤ k) (hk : k < b) (hb : b ≤ s.length) :
    byteAt s k ∈ slice s a b := by
  obtain ⟨n, rfl⟩ := Nat.exists_eq_add_of_le (ha.trans hk.le)
  obtain ⟨m, rfl⟩ := Nat.exists_eq_add_of_le ha
  rw [slice_eq_map_byteAt hb]
  exact List.mem_map_of_mem (List.mem_range.2 (by omega))

section EncodedFrame
variable {ser : Serial} {cmd : Byte} {code : Code} {f : Bytes} (hf : f = frameOfBody (frameBody ser cmd code))
include hf

/-- An encoded frame without a further delimiter byte reaches the dispatch (R51, R122). -/
theorem dispatched_of_encoded (h : ∀ b ∈ slice f 5 11 ++ slice f 12 19, b ≠ 0x68 ∧ b ≠ 0x16) :
    Claims.Dispatched f 4 11 19 := by
  have hlen : f.length = 20 := by rw [hf]; rfl
  have hpre (k : Nat) (hk : k < 4) : byteAt f k = 0xFE := by
    rw [hf]
    interval_cases k <;> rfl
  have hstart : byteAt f 4 = 0x68 := by rw [hf]; rfl
  have hdiv : byteAt f 11 = 0x68 := by rw [hf]; rfl
  have hstop : byteAt f 19 = 0x16 := by rw [hf]; rfl
  have hsum : Claims.SumOk f 4 19 := by
    rw [hf]
    exact (checksum_toNat (frameBody ser cmd code)).symm
  have hserial (k : Nat) (h1 : 5 ≤ k) (h2 : k < 11) :=
    h _ (List.mem_append_left _ (byteAt_mem_slice h1 h2 (by omega)))
  have hrest (k : Nat) (h1 : 12 ≤ k) (h2 : k < 19) :=
    h _ (List.mem_append_right _ (byteAt_mem_slice h1 h2 (by omega)))
  refine ⟨⟨by omega, by omega, by omega, hstart, fun k hk => ?_, hdiv, fun k hk hk' => ?_, hstop, fun k hk => ?_⟩,
    by omega, hsum, rfl, by omega⟩
  · rw [hpre k hk]
    decide
  · obtain hk' | rfl : k < 19 ∨ k = 19 := by omega
    · exact (hrest k hk hk').1
    · rw [hstop]
      decide
  · obtain hk' | rfl | hk' | rfl | hk' : k < 4 ∨ k = 4 ∨ (5 ≤ k ∧ k < 11) ∨ k = 11 ∨ 12 ≤ k := by omega
    · rw [hpre k hk']
      decide
    · rw [hstart]
      decide
    · exact (hserial k hk'.1 hk'.2).2
    · rw [hdiv]
      decide
    · exact (hrest k hk' hk).2

/-- The serial text of an encoded frame is that of its packed field (R111, R122). -/
theorem serialText_of_encoded : Claims.serialText f 4 = serialUnpack ser := by
  subst hf
  exact (serialUnpack_eq ser).symm

end EncodedFrame

/-- A response of length 4 has no value pairs, so its value is 0 (R114, R122). -/
theorem readValue_four (f : Bytes) (div : Nat) (e : PropEntry) : Claims.readValue f div 4 e = 0 := by
  simp [Claims.readValue]

/-- Settles O59: the frame reaches the dispatch at its own positions, each command's decode is settled above, and the
serial number is the round trip of the packed digits. -/
theorem encodedFramesDecode : Obligations.EncodedFramesDecode := by
  intro s digits cmd name f ht henc hbytes
  obtain ⟨ser, e, he, hser, rfl, hf⟩ := encodeFrame_ok_cases (encodeFrame_of_answered henc)
  have hdisp := dispatched_of_encoded hf hbytes
  have hcmd : byteAt f (11 + 1) = cmd := by rw [hf]; rfl
  have hresp : Claims.ResponseOf f 11 19 4 e := by subst hf; exact ⟨rfl, le_refl 4, rfl, rfl⟩
  refine ⟨?_, hcmd, ?_⟩
  · split_ifs with hread hD1
    · obtain ⟨r, rfl, hdec, -⟩ := decodeReadResponse s f 4 11 19 4 e ht he hdisp (by rwa [hcmd]) hresp
      rw [hdec, readValue_four]
    · obtain ⟨-, r, rfl, hdec, -⟩ := decodeErrorResponse s f 4 11 19 hdisp (hcmd.trans hD1)
      exact hdec
    · obtain ⟨h91, hB1⟩ := not_or.1 hread
      obtain ⟨r, rfl, hdec, -⟩ := decodeUnknownCommand s f 4 11 19 hdisp (by rwa [hcmd]) (by rwa [hcmd]) (by rwa [hcmd])
      exact hdec
  · rw [serialText_of_encoded hf]
    exact serialRoundTripExactlyWhenEven digits ser hser

/-! ## One changed byte (R152): the searches -/

section Searches
variable {s : Bytes} {b x : Byte} {i k : Nat}

/-- Another byte's change leaves the first occurrence, unless it puts the byte before it. -/
theorem first_set_of_ne (h : first s b = some k) (hi : i < s.length) (hik : i ≠ k) (hx : x ≠ b ∨ k < i) :
    first (s.set i x) b = some k := by
  obtain ⟨hk, hb, hbefore⟩ := first_eq_some_iff.1 h
  refine first_eq_some_iff.2 ⟨by simpa using hk, by rw [byteAt_set hi, if_neg hik.symm, hb], fun j hj => ?_⟩
  rw [byteAt_set hi]
  split
  · exact hx.resolve_right (by omega)
  · exact hbefore j hj

theorem first_set_self (h : first s b = some k) (hik : i ≤ k) : first (s.set i b) b = some i := by
  obtain ⟨hk, -, hbefore⟩ := first_eq_some_iff.1 h
  have hi : i < s.length := by omega
  refine first_eq_some_iff.2 ⟨by simpa using hi, by rw [byteAt_set hi, if_pos rfl], fun j hj => ?_⟩
  rw [byteAt_set hi, if_neg hj.ne]
  exact hbefore j (by omega)

/-- Another byte's change leaves the last occurrence, unless it puts the byte behind it. -/
theorem last_set_of_ne (h : last s b = some k) (hi : i < s.length) (hik : i ≠ k) (hx : x ≠ b ∨ i < k) :
    last (s.set i x) b = some k := by
  obtain ⟨hk, hb, hafter⟩ := last_eq_some_iff.1 h
  refine last_eq_some_iff.2 ⟨by simpa using hk, by rw [byteAt_set hi, if_neg hik.symm, hb], fun j hj hjl => ?_⟩
  rw [byteAt_set hi]
  split
  · exact hx.resolve_right (by omega)
  · exact hafter j hj (by simpa using hjl)

theorem last_set_self (h : last s b = some k) (hi : i < s.length) (hik : k ≤ i) : last (s.set i b) b = some i := by
  obtain ⟨-, -, hafter⟩ := last_eq_some_iff.1 h
  refine last_eq_some_iff.2 ⟨by simpa using hi, by rw [byteAt_set hi, if_pos rfl], fun j hj hjl => ?_⟩
  rw [byteAt_set hi, if_neg hj.ne']
  exact hafter j (by omega) (by simpa using hjl)

end Searches

/-! ## One changed byte (R152): the checksum and the fields -/

theorem byteAt_set_of_lt {s : Bytes} {i k : Nat} {x : Byte} (h : i < k) : byteAt (s.set i x) k = byteAt s k := by
  simp [byteAt, h.ne]

theorem slice_set_of_lt {s : Bytes} {i a : Nat} {x : Byte} (b : Nat) (h : i < a) :
    slice (s.set i x) a b = slice s a b := by
  rw [slice, List.drop_set, if_pos h, slice]

theorem slice_set_of_ge {s : Bytes} {i a : Nat} {x : Byte} (b : Nat) (h : a ≤ i) :
    slice (s.set i x) a b = (slice s a b).set (i - a) x := by
  rw [slice, List.drop_set, if_neg (Nat.not_lt.2 h), List.take_set, slice]

theorem byteAt_slice {s : Bytes} {a b i : Nat} (ha : a ≤ i) (hb : i < b) :
    byteAt (slice s a b) (i - a) = byteAt s i := by
  simp [byteAt, slice, List.getElem?_drop, show i - a < b - a by omega, Nat.add_sub_cancel' ha]

/-- A changed byte of the summed range or of the checksum breaks the agreement (R152). -/
theorem not_sumOk_set {f : Bytes} {start stop i : Nat} {x : Byte} (hsum : Claims.SumOk f start stop)
    (hstart : start ≤ i) (hi : i < stop) (hstop : stop ≤ f.length) (hx : byteAt f i ≠ x) :
    ¬ Claims.SumOk (f.set i x) start stop := by
  unfold Claims.SumOk Claims.byteSum at hsum ⊢
  rw [slice_set_of_ge _ hstart, byteAt_set (by omega)]
  by_cases hcs : stop - 1 = i
  · rw [if_pos hcs, List.set_eq_of_length_le (by rw [slice_length (by omega)]; omega), hsum, hcs]
    exact fun h => hx (BitVec.toNat_inj.1 h)
  · rw [if_neg hcs, ← hsum]
    refine sum_set_mod_ne (by rw [slice_length (by omega)]; omega) ?_
    rwa [byteAt_slice hstart (by omega)]

/-- The dispatch reads nothing before the first divider (R111 to R118). -/
theorem dispatchCommand_set_of_lt {f : Bytes} {p : Located} {i : Nat} (t : List PropEntry) (x : Byte)
    (hi : i < p.start) (hdiv : p.start < p.div) (hstop : p.div ≤ p.stop - 3) :
    dispatchCommand t (f.set i x) p = dispatchCommand t f p := by
  have hbyte (k : Nat) (hk : p.start < k) : byteAt (f.set i x) k = byteAt f k := byteAt_set_of_lt (hi.trans hk)
  have hserial : serialField (f.set i x) p = serialField f p := by
    simp (disch := omega) only [serialField, hbyte]
  have hcommand : commandByte (f.set i x) p = commandByte f p := hbyte _ (by omega)
  have hcode : codeField (f.set i x) p = codeField f p := by
    simp (disch := omega) only [codeField, hbyte]
  have hresponse : response91 t (f.set i x) p = response91 t f p := by
    rw [response91, hbyte _ (by omega), slice_set_of_lt _ (by omega), hserial, hcommand, hcode, response91]
  have herror : errorResponse (f.set i x) p = errorResponse f p := by
    rw [errorResponse, hserial, hcommand, hbyte _ (by omega), errorResponse]
  have hunknown : unknownCommand (f.set i x) p = unknownCommand f p := by
    rw [unknownCommand, hserial, hcommand, unknownCommand]
  rw [dispatchCommand, hcommand, hresponse, herror, hunknown, dispatchCommand]

/-- A byte before the first divider that moves no position changes nothing of the decode (R152). -/
theorem decodeFrame_set_of_lt {f : Bytes} {p : Located} {i : Nat} {x : Byte} (t : List PropEntry)
    (h : locate f = .ok p) (hset : locate (f.set i x) = .ok p) (hi : i < p.start) :
    decodeFrame t (f.set i x) = decodeFrame t f := by
  have hheader : header (f.set i x) = header f := by
    by_cases hord : p.start + 1 < p.stop
    · have hverify : verify (f.set i x) p = verify f p := by
        rw [verify, slice_set_of_lt _ hi, byteAt_set_of_lt (by omega), verify]
      simp only [header, h, hset, hverify]
    · rw [header_of_bad_order h (Nat.not_lt.1 hord), header_of_bad_order hset (Nat.not_lt.1 hord)]
  cases hh : header f with
  | error r => rw [decodeFrame_of_error hh, decodeFrame_of_error (hheader.trans hh)]
  | ok q =>
    obtain ⟨hloc, -⟩ := (header_ok_iff f q).1 hh
    obtain rfl : q = p := Except.ok.inj (hloc.symm.trans h)
    obtain ⟨hserial, -, hstop, -⟩ := header_bounds hh
    rw [decodeFrame_of_header hh, decodeFrame_of_header (hheader.trans hh),
      dispatchCommand_set_of_lt t x hi (by omega) hstop]

/-! ## One changed byte (R152): the positions -/

section ChangedPositions
variable {f : Bytes} {start div stop i : Nat} {x : Byte} (h : Claims.Positions f start div stop)
include h

/-- The last divider and the first terminator are different bytes, so they lie at different indices. -/
theorem div_ne_stop_of_positions : div ≠ stop := by
  obtain ⟨-, -, -, -, -, hdiv, -, hstop, -⟩ := h
  rintro rfl
  exact absurd (hdiv.symm.trans hstop) (by decide)

/-- A byte that is no delimiter, put where none stands, moves no position. -/
theorem positions_set_other (hi : i < f.length) (hs : i ≠ start) (hd : i ≠ div) (ht : i ≠ stop) (hx : x ≠ 0x68)
    (hx' : x ≠ 0x16) : Claims.Positions (f.set i x) start div stop := by
  obtain ⟨hlt, hstart, hdiv, hstop⟩ := positions_iff.1 h
  exact positions_iff.2 ⟨hlt, first_set_of_ne hstart hi hs (.inl hx), last_set_of_ne hdiv hi hd (.inl hx),
    first_set_of_ne hstop hi ht (.inl hx')⟩

/-- A terminator put before the terminator, on no divider, becomes the first one. -/
theorem positions_set_terminator (hi : i < stop) (hs : i ≠ start) (hd : i ≠ div) :
    Claims.Positions (f.set i 0x16) start div i := by
  obtain ⟨hlt, hstart, hdiv, hstop⟩ := positions_iff.1 h
  have hlen : i < f.length := hi.trans (first_eq_some_iff.1 hstop).1
  exact positions_iff.2 ⟨hlt, first_set_of_ne hstart hlen hs (.inl (by decide)),
    last_set_of_ne hdiv hlen hd (.inl (by decide)), first_set_self hstop hi.le⟩

/-- A divider put before the first divider becomes the first one. -/
theorem positions_set_divider_before (hi : i < start) (ht : i ≠ stop) :
    Claims.Positions (f.set i 0x68) i div stop := by
  obtain ⟨hlt, hstart, hdiv, hstop⟩ := positions_iff.1 h
  have hlen : i < f.length := hi.trans (first_eq_some_iff.1 hstart).1
  exact positions_iff.2 ⟨hi.trans hlt, first_set_self hstart hi.le,
    last_set_of_ne hdiv hlen (by omega) (.inr (by omega)), first_set_of_ne hstop hlen ht (.inl (by decide))⟩

/-- Behind the first divider, no byte but a terminator moves the first divider or the first terminator; a divider may
become the last one. -/
theorem positions_set_behind_start (hi : i < f.length) (hs : start < i) (hd : i ≠ div) (ht : i ≠ stop) (hx : x ≠ 0x16) :
    ∃ div', Claims.Positions (f.set i x) start div' stop := by
  obtain ⟨hlt, hstart, hdiv, hstop⟩ := positions_iff.1 h
  have hstart' := first_set_of_ne (x := x) hstart hi hs.ne' (.inr hs)
  have hstop' := first_set_of_ne hstop hi ht (.inl hx)
  by_cases hlast : x ≠ 0x68 ∨ i < div
  · exact ⟨div, positions_iff.2 ⟨hlt, hstart', last_set_of_ne hdiv hi hd hlast, hstop'⟩⟩
  · obtain ⟨hx68, hbehind⟩ := not_or.1 hlast
    obtain rfl := not_not.1 hx68
    exact ⟨i, positions_iff.2 ⟨hs, hstart', last_set_self hdiv hi (Nat.not_lt.1 hbehind), hstop'⟩⟩

end ChangedPositions

/-- Destroying one of two occurrences leaves one. -/
theorem count_set_of_two {s : Bytes} {b x : Byte} {i : Nat} (h : s.count b = 2) (hi : i < s.length)
    (hb : byteAt s i = b) (hx : x ≠ b) : (s.set i x).count b = 1 := by
  rw [List.count_set hi, h, ← byteAt_eq_getElem hi, hb]
  simp [hx]

/-- Destroying the first terminator, at the end of the frame, leaves none. -/
theorem not_mem_set_last {s : Bytes} {b x : Byte} (h : first s b = some (s.length - 1)) (hx : x ≠ b) :
    b ∉ s.set (s.length - 1) x := by
  obtain ⟨hlen, -, hbefore⟩ := first_eq_some_iff.1 h
  intro hb
  obtain ⟨k, hk, hkb⟩ := List.getElem_of_mem hb
  rw [← byteAt_eq_getElem hk, byteAt_set hlen] at hkb
  split at hkb
  · exact hx hkb
  · exact hbefore k (by simp at hk; omega) hkb

/-- Changing another byte loses no occurrence. -/
theorem le_count_set_of_ne {s : Bytes} {b x : Byte} {i : Nat} (hi : i < s.length) (hb : byteAt s i ≠ b) :
    s.count b ≤ (s.set i x).count b := by
  rw [List.count_set hi, ← byteAt_eq_getElem hi, if_neg (by simpa using hb)]
  omega

/-- Settles O60: each clause finds the positions of the changed frame, or the delimiter it lost, and cites what a frame
located so decodes to. -/
theorem singleByteChanges : Obligations.SingleByteChanges := by
  intro s f start div i x hpos hcount hsum hi hx
  have ⟨hlt, hdivlen, hstoplen, hstart, _, hdiv, _, hstop, _⟩ := hpos
  have hne : div ≠ f.length - 1 := div_ne_stop_of_positions hpos
  refine ⟨fun hpre h68 h16 => ?_, ?_, ?_, fun hidiv => ?_, fun hs hd ht h16 => ?_, ?_, ?_, ?_⟩
  · have hset := positions_set_other hpos hi (by omega) (by omega) (by omega) h68 h16
    rw [exec, exec, execCodecDecode, execCodecDecode,
      decodeFrame_set_of_lt s.prop (locate_of_positions hpos) (locate_of_positions hset) hpre]
  · rintro hpre rfl
    exact exec_codecDecode_of_bad_order
      (positions_set_terminator hpos (by omega) (by omega) (by omega)) (by omega) s
  · rintro hpre rfl
    have hset := positions_set_divider_before hpos hpre (by omega)
    exact ⟨hset, decodeDetectsMismatch s _ _ _ _ hset (by omega)⟩
  · have hbyte : byteAt f i = 0x68 := by obtain rfl | rfl := hidiv <;> assumption
    have hleft := count_set_of_two hcount hi hbyte fun h => hx (hbyte.trans h.symm)
    exact exec_codecDecode_of_locate_error (locate_of_one_divider hleft) s
  · obtain ⟨div', hset⟩ := positions_set_behind_start hpos hi hs hd ht.ne h16
    exact decodeDetectsMismatch s _ _ _ _ hset (by omega) (not_sumOk_set hsum hs.le ht (by omega) hx)
  · rintro rfl hd rfl
    exact exec_codecDecode_of_bad_order (positions_set_terminator hpos (by omega) (by omega) hd) (le_refl _) s
  · rintro hs hd ht rfl
    have hset := positions_set_terminator hpos ht (by omega) hd
    exact ⟨hset, decodeDetectsMismatch s _ _ _ _ hset hs⟩
  · rintro rfl
    have hkept : List.count 0x68 f ≤ List.count 0x68 (f.set (f.length - 1) x) :=
      le_count_set_of_ne hi (by rw [hstop]; decide)
    obtain ⟨-, -, -, hfirst⟩ := positions_iff.1 hpos
    have hlost := not_mem_set_last hfirst fun h => hx (hstop.trans h.symm)
    exact exec_codecDecode_of_locate_error (locate_of_no_terminator (hcount ▸ hkept) hlost) s

end Sys2Proof.Machine

/-! PROOFS. Outcomes (spec/60_exceptions.md): the numbers that name them (R124, R129), and what an operation in the wrong
lifecycle state ends in (R126). -/

namespace Sys2Proof.Machine

/-- Settles O2: each number stands in its own table (R16, R108, R119, R124, R129), and a present sub-code is numbered by
the table of R119. -/
theorem numericCodes : Obligations.NumericCodes := by
  refine ⟨?statuses, ?configErrors, ?decodeKinds, ?structurals, ?lives⟩
  case structurals => exact ⟨rfl, rfl, rfl, rfl, rfl, rfl, rfl, rfl, fun _ => rfl⟩
  all_goals decide

/-- Settles O24: the push, the tick and the end need a running instance, the destroy one that is running or closed. -/
theorem wrongLifeRefused : Obligations.WrongLifeRefused := by
  intro s inst chunk ms x hx
  refine ⟨fun hl => ?_, exec_asmDestroy_of_not_live hx⟩
  have hrefused := exec_of_not_running hx hl chunk ms
  exact ⟨hrefused _ (by simp), hrefused _ (by simp), hrefused _ (by simp)⟩

end Sys2Proof.Machine
